-- ==== Sys2Proof/Word.lean ====
section
/-! DEFINITION. The Word type and the three word-width profiles (00_scope.md R3, R10; 43_arithmetic.md R137). -/

namespace Sys2Proof

/-- The three profiles, "W16, W32 and W64" (R3); adding another would be another machine. -/
inductive Width where
  | w16
  | w32
  | w64
  deriving DecidableEq, Repr

/-- `W`, the word width in bits (R6). -/
def Width.bits : Width → Nat
  | .w16 => 16
  | .w32 => 32
  | .w64 => 64

/-- `BYTE_SIZE = W / 8`, the bytes of one Word in the program image (R6, R137). -/
def Width.bytes (w : Width) : Nat := w.bits / 8

/-- A Word of any profile, kept in the 64 bits of the widest (log entry 4): in a well-formed machine of profile `W` every
Word held is below `2^W`, which `State.fits` says and every step keeps. -/
abbrev Word := BitVec 64

/-- "A byte is an unsigned integer in `[0, 256)`" (R10). -/
abbrev Byte := BitVec 8

end Sys2Proof
end

