-- ==== Sys2Proof/Config.lean ====
section
/-! DEFINITION. What is fixed when a machine is constructed (00_scope.md R6), the device contract as far as the core
consumes it (10_state.md R27, R28), and the free values: constants with no body, so that nothing can be proved of them. -/

namespace Sys2Proof

/-- The parameters of R6 that a construction fixes; `W` is `width`. -/
structure Config where
  /-- The word-width profile (R3). -/
  width : Width
  /-- `DATA_SIZE`, the data segment's length in words (OPEN, D4). -/
  dataSize : Nat
  /-- `INSTRUCTION_SIZE`, the instruction segment's length in address units (OPEN, D4). -/
  instructionSize : Nat
  /-- `DIAG_ADDR`, "canonically 420" (OPEN with that default, D13). -/
  diagAddr : Word
  /-- `RESET_PC` (OPEN, D5). -/
  resetPc : Word
  deriving DecidableEq, Repr

/-- The fixture `EX16` of R8: "a test fixture chosen by this spec, not a claim about the repository's constants". -/
def Config.ex16 : Config where
  width := .w16
  dataSize := 1024
  instructionSize := 3072
  diagAddr := 420
  resetPc := 1025

/-- A device as the core sees it: its inclusive range `[lo, hi]` (R27). Its internal state is not the core's (R28). -/
structure Device where
  lo : Word
  hi : Word
  deriving DecidableEq, Repr

/-- The two operations of the device contract (R27). -/
inductive DeviceCall where
  | load (a : Word)
  | push (a v : Word)
  deriving DecidableEq, Repr

/-- What a device answers (R27, R49): success, with the Word loaded (a push's success carries a Word that nothing uses), or
failure, with the payload that `DeviceError` will carry. -/
inductive DeviceAnswer where
  | ok (v : Word)
  | failed (payload : Word)
  deriving DecidableEq, Repr, Inhabited

/-- One device call and its answer, the event of R28; `device` is the device's place in the registration order. -/
structure DeviceEvent where
  device : Nat
  call : DeviceCall
  answer : DeviceAnswer
  deriving DecidableEq, Repr

/-- FREE VALUE (log entry 8): the oracle of R28, the answer to one device call. It may depend on how many draws were made,
on every earlier device call and on the call itself, and is otherwise anything: "a claim must hold for every value". -/
opaque Config.deviceAnswer (draw : Nat) (history : List DeviceEvent) (device : Nat) (call : DeviceCall) : DeviceAnswer

/-- FREE VALUE (log entry 9): the same oracle's answers to the diagnostic write's repeated push (R158): the payloads of the
pushes that fail before the first that succeeds, or `none` when "that device fails every push" (R159). -/
opaque Config.retriedPush (draw : Nat) (history : List DeviceEvent) (device : Nat) (call : DeviceCall) :
    Option (List Word)

/-- PARAMETER (log entry 15): the Word domain's remainder, which no instruction uses (R130, D33). -/
opaque Config.wordRem (w : Width) (a b : Word) : Word

/-- PARAMETER (log entry 15): the conversion of a Word to a "machine-independent 32-bit integer", unused (R130, D33). -/
opaque Config.wordToInt32 (w : Width) (v : Word) : BitVec 32

/-- PARAMETER (log entry 15): the conversion of a 32-bit integer to a Word, unused (R130, D33). -/
opaque Config.int32ToWord (w : Width) (n : BitVec 32) : Word

end Sys2Proof
end

