-- ==== Sys2Proof/Syntax.lean ====
section
/-! DEFINITION. The instructions: one constructor per class of 30_encoding.md R73, with the operands, flags and speed tag
that R74, R75, R77 and R80 give it. -/

namespace Sys2Proof

/-- The three error-policy flags of an opcode byte (R72, R74): "independent booleans". -/
structure Flags where
  /-- `ignore_errors`, `ob[4]`. -/
  ie : Bool
  /-- `no_halt_if_error`, `ob[3]`. -/
  nh : Bool
  /-- `no_debug_info`, `ob[2]`. -/
  nd : Bool
  deriving DecidableEq, Repr

/-- No flag set. -/
def Flags.none : Flags := ⟨false, false, false⟩

/-- The speed tag `ob[1:0]` (R77): "decoded and carried but not interpreted". -/
inductive Speed where
  | fast
  | medium
  | slow
  | halt
  deriving DecidableEq, Repr

/-- The eight instructions of R73. `a1` and `a2` are raw Words (R75). -/
inductive Instr where
  /-- NOP: "carries no operands and no flags" (R80). -/
  | nop
  /-- LOAD: `a1` is the destination address, `a2` the immediate (R111). -/
  | load (f : Flags) (speed : Speed) (a1 a2 : Word)
  /-- COPY: `a1` is the source address, `a2` the destination (R112). -/
  | copy (f : Flags) (speed : Speed) (a1 a2 : Word)
  /-- CMP: both are source addresses (R120). -/
  | cmp (f : Flags) (speed : Speed) (a1 a2 : Word)
  /-- ADD: `a1` is source and destination, `a2` source (R131). -/
  | add (f : Flags) (speed : Speed) (a1 a2 : Word)
  /-- SUB: `a1` is minuend and destination, `a2` subtrahend (R132). -/
  | sub (f : Flags) (speed : Speed) (a1 a2 : Word)
  /-- MUL: `a1` is source and destination, `a2` source (R133). -/
  | mul (f : Flags) (speed : Speed) (a1 a2 : Word)
  /-- DIV: `a1` is dividend and destination, `a2` divisor (R134). -/
  | div (f : Flags) (speed : Speed) (a1 a2 : Word)
  deriving DecidableEq, Repr

end Sys2Proof
end

