-- ==== Sys2Proof/WellFormed.lean ====
section
/-! DEFINITION. What a configuration (00_scope.md R7), a device and an instruction must satisfy in a machine of a given
profile. -/

namespace Sys2Proof

/-- "Every Word is an unsigned integer in `[0, 2^W)`" (R10). -/
def fits (w : Width) (v : Word) : Bool := decide (v.toNat < 2 ^ w.bits)

/-- Both operands are Words of the profile; "any Word is a legal operand" (R75), so nothing else is asked. -/
def Instr.wf (w : Width) : Instr → Bool
  | .nop => true
  | .load _ _ a1 a2 => fits w a1 && fits w a2
  | .copy _ _ a1 a2 => fits w a1 && fits w a2
  | .cmp _ _ a1 a2 => fits w a1 && fits w a2
  | .add _ _ a1 a2 => fits w a1 && fits w a2
  | .sub _ _ a1 a2 => fits w a1 && fits w a2
  | .mul _ _ a1 a2 => fits w a1 && fits w a2
  | .div _ _ a1 a2 => fits w a1 && fits w a2

/-- The conditions of R7 on the configuration (the image's length is checked where it is used, R66), and that the two
address parameters are Words of the profile (log entry 14). -/
def Config.wf (c : Config) : Bool :=
  decide (1 ≤ c.dataSize) &&
  decide (3 ≤ c.instructionSize) &&
  decide (c.instructionSize % 3 = 0) &&
  decide (c.dataSize + 1 + c.instructionSize ≤ 2 ^ c.width.bits - 1) &&
  fits c.width c.diagAddr &&
  fits c.width c.resetPc

/-- A device's declared bounds are Words of the profile (R27, log entry 14); `lo > hi` is legal and contains nothing (R48). -/
def Device.wf (w : Width) (d : Device) : Bool := fits w d.lo && fits w d.hi

end Sys2Proof
end

