-- ==== Sys2Proof/Decode.lean ====
section
/-! DEFINITION. The bit-field, byte-order and width helpers, the decoder of 30_encoding.md R72 to R81 on words and on image
bytes, and the encoder of R82. -/

namespace Sys2Proof

/-! ### Widths, bytes and byte order -/

/-- The Word `v mod 2^W`: what every `w`-suffixed operator of R10 reduces its result to. -/
def wrap (w : Width) (v : Word) : Word := BitVec.ofNat 64 (v.toNat % 2 ^ w.bits)

/-- `narrow8(v) = v[7:0]` (R10, R46, R76). -/
def narrow8 (v : Word) : Byte := v.setWidth 8

/-- `zext_W(b)`: a byte widened "by zero extension" (R10, R45). -/
def zextByte (b : Byte) : Word := b.setWidth 64

/-- `BE(x0 .. x(n-1))`, the sum of `x_j * 256^(n-1-j)` (R65). -/
def bigEndian (bytes : List Byte) : Nat := bytes.foldl (fun acc b => acc * 256 + b.toNat) 0

/-- The `n` low bytes of a value, the most significant first (R54, R64). -/
def toBytes : Nat → Nat → List Byte
  | 0, _ => []
  | n + 1, v => BitVec.ofNat 8 (v / 256 ^ n) :: toBytes n v

/-- `CELL_BYTES = 1 + 2*BYTE_SIZE` (R6, R64, R71). -/
def cellBytes (w : Width) : Nat := 1 + 2 * w.bytes

/-! ### The decoder -/

/-- The class field `ob[7:5]` (R73). -/
inductive OpClass where
  | noOp
  | load
  | copy
  | compare
  | add
  | sub
  | mul
  | div
  deriving DecidableEq, Repr

/-- The eight patterns of `ob[7:5]`, written most significant bit first (R73): "three bits have exactly the eight defined
patterns". -/
def classOf (ob : Byte) : OpClass :=
  match ob.getLsbD 7, ob.getLsbD 6, ob.getLsbD 5 with
  | false, false, false => .noOp
  | false, false, true => .load
  | false, true, false => .copy
  | false, true, true => .compare
  | true, false, false => .add
  | true, false, true => .sub
  | true, true, false => .mul
  | true, true, true => .div

/-- `ie: ob[4]`, `nh: ob[3]`, `nd: ob[2]` (R72, R78). -/
def flagsOf (ob : Byte) : Flags := ⟨ob.getLsbD 4, ob.getLsbD 3, ob.getLsbD 2⟩

/-- `[Fast, Medium, Slow, Halt][ob[1:0]]` (R77, R78). -/
def speedOf (ob : Byte) : Speed :=
  match ob.getLsbD 1, ob.getLsbD 0 with
  | false, false => .fast
  | false, true => .medium
  | true, false => .slow
  | true, true => .halt

/-- The instruction of a class with these fields; NoOp "carries no operands and no flags" (R73, R78, R80). -/
def Instr.ofClass (k : OpClass) (f : Flags) (sp : Speed) (a1 a2 : Word) : Instr :=
  match k with
  | .noOp => .nop
  | .load => .load f sp a1 a2
  | .copy => .copy f sp a1 a2
  | .compare => .cmp f sp a1 a2
  | .add => .add f sp a1 a2
  | .sub => .sub f sp a1 a2
  | .mul => .mul f sp a1 a2
  | .div => .div f sp a1 a2

/-- `Decode(w0, w1, w2)` (R78): the opcode byte is `narrow8(w0)` (R76), the operands are `w1` and `w2` as fetched (R75).
"Decoding never fails" (R79), so nothing is rejected here. -/
def decode (w0 w1 w2 : Word) : Instr :=
  let ob := narrow8 w0
  Instr.ofClass (classOf ob) (flagsOf ob) (speedOf ob) w1 w2

/-- The three parts of a cell as they stand in the image (R64, R71): opcode byte, operand1, operand2. -/
structure CellFields where
  op : Byte
  a1 : Word
  a2 : Word
  deriving DecidableEq, Repr

/-- One cell parsed from the front of a byte buffer (R65); a byte past the buffer's end reads as 0, which `decodeBytes` and
`construct` never let happen. -/
def parseCell (w : Width) (bytes : List Byte) : CellFields where
  op := bytes.headD 0
  a1 := BitVec.ofNat 64 (bigEndian ((bytes.drop 1).take w.bytes))
  a2 := BitVec.ofNat 64 (bigEndian ((bytes.drop (1 + w.bytes)).take w.bytes))

/-- Why a byte list holds no cell. -/
inductive DecodeError where
  /-- Fewer than `CELL_BYTES` bytes are left (R71). -/
  | shortCell
  deriving DecidableEq, Repr

/-- The decoder on image bytes: one cell of the profile from the front of the list (R71), and the bytes after it. -/
def decodeBytes (w : Width) (bytes : List Byte) : Except DecodeError (Instr × List Byte) :=
  if bytes.length < cellBytes w then .error .shortCell
  else
    let c := parseCell w bytes
    .ok (decode (zextByte c.op) c.a1 c.a2, bytes.drop (cellBytes w))

/-- One row of R73's table: the mnemonic, and the match and mask of its opcode bytes. -/
structure OpcodeRow where
  mnemonic : String
  pattern : Byte
  mask : Byte
  instruction : OpClass
  deriving DecidableEq, Repr

/-- R73's table, which "opcode_table.json" copies. -/
def opcodeTable : List OpcodeRow :=
  [⟨"NOP", 0x00, 0xE0, .noOp⟩, ⟨"LOAD", 0x20, 0xE0, .load⟩, ⟨"COPY", 0x40, 0xE0, .copy⟩, ⟨"CMP", 0x60, 0xE0, .compare⟩,
   ⟨"ADD", 0x80, 0xE0, .add⟩, ⟨"SUB", 0xA0, 0xE0, .sub⟩, ⟨"MUL", 0xC0, 0xE0, .mul⟩, ⟨"DIV", 0xE0, 0xE0, .div⟩]

/-- An opcode byte is a row's when its masked bits are the row's pattern (R73). -/
def OpcodeRow.covers (r : OpcodeRow) (ob : Byte) : Bool := ob &&& r.mask == r.pattern

/-! ### The encoder -/

/-- The class number of R73. -/
def OpClass.code : OpClass → Nat
  | .noOp => 0
  | .load => 1
  | .copy => 2
  | .compare => 3
  | .add => 4
  | .sub => 5
  | .mul => 6
  | .div => 7

/-- The speed tag's number (R77). -/
def Speed.code : Speed → Nat
  | .fast => 0
  | .medium => 1
  | .slow => 2
  | .halt => 3

/-- `ob = class*32 + ie*16 + nh*8 + nd*4 + speed` (R72). -/
def opcodeByte (k : OpClass) (f : Flags) (sp : Speed) : Byte :=
  BitVec.ofNat 8 (k.code * 32 + f.ie.toNat * 16 + f.nh.toNat * 8 + f.nd.toNat * 4 + sp.code)

/-- The cell of an instruction (R82); a NoOp carries nothing (R80), so its cell is that of `NOP 0, 0`. -/
def encode : Instr → CellFields
  | .nop => ⟨opcodeByte .noOp .none .fast, 0, 0⟩
  | .load f sp a1 a2 => ⟨opcodeByte .load f sp, a1, a2⟩
  | .copy f sp a1 a2 => ⟨opcodeByte .copy f sp, a1, a2⟩
  | .cmp f sp a1 a2 => ⟨opcodeByte .compare f sp, a1, a2⟩
  | .add f sp a1 a2 => ⟨opcodeByte .add f sp, a1, a2⟩
  | .sub f sp a1 a2 => ⟨opcodeByte .sub f sp, a1, a2⟩
  | .mul f sp a1 a2 => ⟨opcodeByte .mul f sp, a1, a2⟩
  | .div f sp a1 a2 => ⟨opcodeByte .div f sp, a1, a2⟩

/-- The image bytes of a cell: `[opcode:1][operand1:BYTE_SIZE big-endian][operand2:BYTE_SIZE big-endian]` (R64). -/
def cellToBytes (w : Width) (c : CellFields) : List Byte :=
  c.op :: (toBytes w.bytes c.a1.toNat ++ toBytes w.bytes c.a2.toNat)

/-- The image bytes of an instruction in a profile (R71, R82). -/
def encodeBytes (w : Width) (i : Instr) : List Byte := cellToBytes w (encode i)

/-- An instruction as R82 writes it: `MNEMONIC[.ie][.nh][.nd][.fast|.medium|.slow|.halt]  a1, a2`, the mnemonic given by its class.
The operands are the "unsigned numbers" written, of any size. -/
inductive Written where
  /-- A mnemonic with its flag suffixes, its speed suffix if one is written, and its two operands. -/
  | instruction (k : OpClass) (f : Flags) (speed : Option Speed) (a1 a2 : Nat)
  /-- "`NOP` may be written without operands, meaning `NOP 0, 0`"; suffixes may stand on it as on any
  mnemonic (DEDUCED, log entry 18). -/
  | bareNop (f : Flags) (speed : Option Speed)
  /-- "A raw cell is written `.cell ob, a1, a2`"; its numbers are reduced like any other's (DEDUCED, log entry 18). -/
  | rawCell (ob : Byte) (a1 a2 : Nat)
  deriving DecidableEq, Repr

/-- The mnemonic of a class (R73). -/
def OpClass.mnemonic : OpClass → String
  | .noOp => "NOP"
  | .load => "LOAD"
  | .copy => "COPY"
  | .compare => "CMP"
  | .add => "ADD"
  | .sub => "SUB"
  | .mul => "MUL"
  | .div => "DIV"

/-- The flag suffixes and the speed suffix, in R82's order. -/
def suffixes (f : Flags) (speed : Option Speed) : String :=
  (if f.ie then ".ie" else "") ++ (if f.nh then ".nh" else "") ++ (if f.nd then ".nd" else "") ++
    match speed with
    | none => ""
    | some .fast => ".fast"
    | some .medium => ".medium"
    | some .slow => ".slow"
    | some .halt => ".halt"

/-- The text of a written instruction, its numbers in decimal, one of the two spellings R82 allows (log entry 18). -/
def Written.text : Written → String
  | .instruction k f speed a1 a2 => k.mnemonic ++ suffixes f speed ++ " " ++ toString a1 ++ ", " ++ toString a2
  | .bareNop f speed => OpClass.noOp.mnemonic ++ suffixes f speed
  | .rawCell ob a1 a2 => ".cell " ++ toString ob.toNat ++ ", " ++ toString a1 ++ ", " ++ toString a2

/-- A written operand: the number "reduced mod `2^W`" (R82). -/
def writtenOperand (w : Width) (n : Nat) : Word := BitVec.ofNat 64 (n % 2 ^ w.bits)

/-- The cell `[ob][a1][a2]` of a written instruction (R82): a NOP keeps the suffixes and operands it is written with, which decoding
then ignores (R80); no speed suffix means `.fast`. -/
def assemble (w : Width) : Written → CellFields
  | .instruction k f sp a1 a2 => ⟨opcodeByte k f (sp.getD .fast), writtenOperand w a1, writtenOperand w a2⟩
  | .bareNop f sp => ⟨opcodeByte .noOp f (sp.getD .fast), 0, 0⟩
  | .rawCell ob a1 a2 => ⟨ob, writtenOperand w a1, writtenOperand w a2⟩

/-- The image bytes of a written instruction (R64, R82). -/
def assembleBytes (w : Width) (i : Written) : List Byte := cellToBytes w (assemble w i)

/-- The class an instruction belongs to (R73). -/
def Instr.opClass : Instr → OpClass
  | .nop => .noOp
  | .load .. => .load
  | .copy .. => .copy
  | .cmp .. => .compare
  | .add .. => .add
  | .sub .. => .sub
  | .mul .. => .mul
  | .div .. => .div

/-! ### The opcode table's words -/

/-- The bytes of a word numbered as spec/opcode_table.json numbers bits: bit 0 is the least significant bit of the opcode
byte, byte `j` of the cell is bits `8j+7 .. 8j`, and every bit from `nbits` up is 0 (log entry 12). -/
def tableBytes (w : Width) (nbits v : Nat) : List Byte :=
  (List.range (cellBytes w)).map fun j => BitVec.ofNat 8 (v % 2 ^ nbits / 256 ^ j)

/-- The instruction the decoder reads from a table word, laid out as a W16 cell, the profile of the machine after reset
(log entry 12). -/
def decodeTableWord (nbits w : Nat) : Option Instr :=
  match decodeBytes .w16 (tableBytes .w16 nbits w) with
  | .ok (i, _) => some i
  | .error _ => none

end Sys2Proof
end

