-- ==== Sys2Proof/Machine/State.lean ====
section
/-! DEFINITION. The machine state of 10_state.md R20, what a tick returns (00_scope.md R12, 60_exceptions.md R150), the
outcomes that end the machine (R155), and the state after construction with the fixture EX16. -/

namespace Sys2Proof.Machine

/-- The error taxonomy (R150), "each carrying the offending Word". `illegalInstruction` and `illegalInstructionSpeed` are
kept and raised by nothing (R151, R152). -/
inductive CpuError where
  | illegalInstruction (opcode : Word)
  | illegalInstructionSpeed (speed : Word)
  | addressNotPopulated (a : Word)
  | deviceError (payload : Word)
  deriving DecidableEq, Repr

/-- What the last call of `tick` returned to the host (R96): the model's own field, "the only record" of an escalated error
(R162). DESIGN CHOICE: an `Err` is a next state, since the machine accepts another tick (R98, log entry 6). -/
inductive TickResult where
  /-- No tick has returned yet. -/
  | noTick
  /-- `Ok(())`. -/
  | ok
  /-- `Err(e)`. -/
  | err (e : CpuError)
  deriving DecidableEq, Repr

/-- The model-level outcomes that end the machine (R12, R155): "no later step exists" (log
entry 7). -/
inductive Fault where
  /-- Raised by any bus call at `A_TOP`: fetch, an instruction's load or push, or the diagnostic write (R47, R159). Safe: the
  spec gives the access no continuation. -/
  | boundaryAddress
  /-- Raised by DIV when both loads succeed and the divisor is 0 (R134). Safe: the spec gives no quotient. -/
  | divideByZero
  /-- `Hang(DiagnosticLoop)`, raised by the error policy when the diagnostic write never succeeds (R159). Safe: the tick never
  returns, so nothing is claimed of a state after it. -/
  | diagnosticLoop
  deriving DecidableEq, Repr

/-- The refusals of the interface. -/
inductive Refusal where
  /-- Raised by an arm of `exec` whose instruction has no meaning yet: no arm is left so. Safe. -/
  | notModelled (mnemonic : String)
  deriving DecidableEq, Repr

/-- The state of R20, with the configuration it was constructed from, what the last tick returned, and the oracle of R28. -/
structure State where
  /-- The configuration (R6), which no step changes. -/
  cfg : Config
  /-- `reg_zero`, program counter and general register, at address 0 (R21). -/
  regZero : Word
  /-- `data[0 .. DATA_SIZE-1]` (R25): pairs of an index and a nonzero Word, indices rising; an unlisted word is 0
  (DEDUCED: a Word is the unit of memory, log entry 5). -/
  data : List (Nat × Word)
  /-- `cell[0 .. N_CELLS-1]` (R26): pairs of an index and a nonzero cell, indices rising; an unlisted cell is all zero. -/
  cells : List (Nat × CellFields)
  /-- The devices in registration order (R27). -/
  devices : List Device
  /-- The model's own: what the last tick returned (R12). -/
  result : TickResult
  /-- The model's own: the answers of the next device calls, as far as they are settled; after them the oracle draws (log
  entry 8). -/
  script : List DeviceAnswer
  /-- The model's own: how many oracle answers have been taken. -/
  draws : Nat
  /-- The model's own: the device calls made, "recorded in the order the bus makes it" (R28). -/
  events : List DeviceEvent
  deriving DecidableEq, Repr

/-- The machine constructed with EX16, an image of zero bytes and no devices (R180, R35; DESIGN CHOICE, log entries 1 to 3
and 11): `reg_zero = RESET_PC`, every data word 0, every cell all zero. -/
def State.reset : State where
  cfg := .ex16
  regZero := 1025
  data := []
  cells := []
  devices := []
  result := .noTick
  script := []
  draws := 0
  events := []

end Sys2Proof.Machine
end

