-- ==== Sys2Proof/Machine/Memory.lean ====
section
/-! DEFINITION. Sparse arrays in one canonical form, the data segment and the instruction cache as such arrays
(10_state.md R25, R26; 20_memory.md R41, R45, R46), and the words of the cache. -/

namespace Sys2Proof.Machine

/-! ### Sparse arrays: an index that is not listed holds the value `d` -/

/-- The value at index `k`. -/
def sparseGet {α : Type} (d : α) : List (Nat × α) → Nat → α
  | [], _ => d
  | (j, x) :: m, k => if j = k then x else sparseGet d m k

/-- The array with nothing listed at `k`. -/
def sparseErase {α : Type} (m : List (Nat × α)) (k : Nat) : List (Nat × α) := m.filter fun e => decide (e.1 ≠ k)

/-- The array with `x` listed at `k`, before the first higher index; `k` is not listed in it. -/
def sparseInsert {α : Type} (k : Nat) (x : α) : List (Nat × α) → List (Nat × α)
  | [] => [(k, x)]
  | (j, y) :: m => if k < j then (k, x) :: (j, y) :: m else (j, y) :: sparseInsert k x m

/-- The array with `x` at index `k`: writing what an unlisted index holds removes the entry. -/
def sparseSet {α : Type} [DecidableEq α] (d : α) (m : List (Nat × α)) (k : Nat) (x : α) : List (Nat × α) :=
  if x = d then sparseErase m k else sparseInsert k x (sparseErase m k)

/-- The canonical form: indices strictly rising and below `n`, and no entry holds `d`. -/
def sparseWf {α : Type} [DecidableEq α] (d : α) (n : Nat) : List (Nat × α) → Bool
  | [] => true
  | (k, x) :: m => decide (k < n) && decide (x ≠ d) && m.all (fun e => decide (k < e.1)) && sparseWf d n m

/-! ### The regions' bounds -/

/-- `N_CELLS = INSTRUCTION_SIZE / 3` (R6). -/
def nCells (c : Config) : Nat := c.instructionSize / 3

/-- `I_BASE = DATA_SIZE + 1` (R6). -/
def iBase (c : Config) : Nat := c.dataSize + 1

/-- `A_TOP = DATA_SIZE + 1 + INSTRUCTION_SIZE` (R6, R47). -/
def aTop (c : Config) : Nat := c.dataSize + 1 + c.instructionSize

/-! ### The data segment and the instruction cache -/

/-- What an unlisted data word reads as: the reset contents, 0 (R32). -/
def unlistedWord : Word := 0

/-- What an unlisted cell reads as: all zero, the cell a zero image builds (R33, log entry 3). -/
def unlistedCell : CellFields := ⟨0, 0, 0⟩

/-- `data[i]` (R11). -/
def State.dataWord (s : State) (i : Nat) : Word := sparseGet unlistedWord s.data i

/-- `data[i] <- v` (R44). -/
def State.setData (s : State) (i : Nat) (v : Word) : State := { s with data := sparseSet unlistedWord s.data i v }

/-- `cell[k]` (R11). -/
def State.cell (s : State) (k : Nat) : CellFields := sparseGet unlistedCell s.cells k

/-- `cell[k]` with all its fields replaced. -/
def State.setCell (s : State) (k : Nat) (c : CellFields) : State :=
  { s with cells := sparseSet unlistedCell s.cells k c }

/-- Field `f` of a cell as a Word (R45): "field 0 widened from byte to Word" by zero extension. -/
def fieldGet (c : CellFields) (f : Nat) : Word :=
  match f with
  | 0 => zextByte c.op
  | 1 => c.a1
  | _ => c.a2

/-- A cell with field `f` written (R46): a write to field 0 keeps `v[7:0]`. -/
def fieldSet (c : CellFields) (f : Nat) (v : Word) : CellFields :=
  match f with
  | 0 => { c with op := narrow8 v }
  | 1 => { c with a1 := v }
  | _ => { c with a2 := v }

/-- `CacheGet(i)`: field `i mod 3` of cell `i / 3` (R45). -/
def State.cacheGet (s : State) (i : Nat) : Word := fieldGet (s.cell (i / 3)) (i % 3)

/-- `CacheSet(i, v)` (R46). -/
def State.cacheSet (s : State) (i : Nat) (v : Word) : State := s.setCell (i / 3) (fieldSet (s.cell (i / 3)) (i % 3) v)

/-- The canonical form of the machine's two arrays: bounds, order, and no entry that reads as an unlisted one. -/
def Memory.wf (s : State) : Bool :=
  sparseWf unlistedWord s.cfg.dataSize s.data && sparseWf unlistedCell (nCells s.cfg) s.cells

end Sys2Proof.Machine
end

