-- ==== Sys2Proof/Machine/Operands.lean ====
section
/-! DEFINITION. The Word datapath of 43_arithmetic.md R130 and R135 and Compare's adjustment (42_compare_control.md R120).
Operands need no more: each is a raw Word, an absolute address or LOAD's immediate (30_encoding.md R75). -/

namespace Sys2Proof.Machine

/-- `a +w b`, the sum modulo `2^W` (R10, R135). -/
def addW (w : Width) (a b : Word) : Word := wrap w (a + b)

/-- `a -w b`, the difference modulo `2^W` (R10, R135). -/
def subW (w : Width) (a b : Word) : Word := wrap w (a - b)

/-- `a *w b`, the low W bits of the product (R10, R135). -/
def mulW (w : Width) (a b : Word) : Word := wrap w (a * b)

/-- `a /u b`, the unsigned quotient `floor(a / b)` for a nonzero `b`, which "never overflows" (R10, R135); DIV asks for no
quotient by 0 (R134). -/
def divW (a b : Word) : Word := a / b

/-- What Compare adds to `reg_zero` (R120): 1 when equal, 2 when greater as unsigned Words, nothing when less. -/
def compareAdjust (v1 v2 : Word) : Word :=
  if v1 = v2 then 1 else if v2.toNat < v1.toNat then 2 else 0

end Sys2Proof.Machine
end

