-- ==== Sys2Proof/Machine/Flags.lean ====
section
/-! DEFINITION. The error policy that an instruction's three flags choose (60_exceptions.md R156). The machine "has no
general-register file, no flags, condition codes or predicates" (10_state.md R24): these are the only flags, and they are
read, never written. -/

namespace Sys2Proof.Machine

/-- What becomes of a failing bus call of the execute phase (R156's table). -/
inductive Policy where
  /-- "absorbed, nothing written". -/
  | absorb
  /-- "escalated: the tick returns `Err(e)`". -/
  | escalate
  /-- "diagnostic write, then absorbed". -/
  | record
  deriving DecidableEq, Repr

/-- `ErrorPolicy(flags, e)` (R156), which does not depend on the error. -/
def errorPolicy (f : Flags) : Policy :=
  if f.ie then .absorb
  else if !f.nh then .escalate
  else if !f.nd then .record
  else .absorb

/-- The spec's ordinal code of a CpuError (R150, D29). -/
def CpuError.code : CpuError → Nat
  | .illegalInstruction _ => 0
  | .illegalInstructionSpeed _ => 1
  | .addressNotPopulated _ => 2
  | .deviceError _ => 3

/-- The Word a CpuError carries (R150). -/
def CpuError.word : CpuError → Word
  | .illegalInstruction v => v
  | .illegalInstructionSpeed v => v
  | .addressNotPopulated a => a
  | .deviceError x => x

end Sys2Proof.Machine
end

