-- ==== Sys2Proof/Machine/Ops.lean ====
section
/-! DEFINITION. The shared operations: resolving an address, the bus's load and push (20_memory.md R41 to R50), device calls
(10_state.md R28), the diagnostic write (60_exceptions.md R158, R159), taking an error (R156, R157, 40_engine.md R94), the
advance (R95) and the fetch (R91, R92). -/

namespace Sys2Proof.Machine

/-! ### Resolving an address -/

/-- The regions of R41, with what backs an address in each. -/
inductive Place where
  /-- `a == 0`: `reg_zero`. -/
  | register
  /-- `data[index]`. -/
  | data (index : Nat)
  /-- The cache offset `a - I_BASE`. -/
  | instruction (offset : Nat)
  /-- `a == A_TOP`. -/
  | boundary
  /-- The device with this place in the registration order. -/
  | device (index : Nat)
  /-- Claimed by nothing. -/
  | unpopulated
  deriving DecidableEq, Repr

/-- `d.lo <= a and a <= d.hi` (R42): "a range with `lo > hi` contains no address" (R48). -/
def claims (d : Device) (a : Word) : Bool := decide (d.lo.toNat ≤ a.toNat) && decide (a.toNat ≤ d.hi.toNat)

/-- The place of the first device that claims the address, counted from `n`: "first match in registration order wins" (R48). -/
def firstClaim (a : Word) : Nat → List Device → Option Nat
  | _, [] => none
  | n, d :: ds => if claims d a then some n else firstClaim a (n + 1) ds

/-- The partition of R41, "checked in the order of the rows": static regions and `A_TOP` before any device (R47, R48). -/
def State.place (s : State) (a : Word) : Place :=
  if a.toNat = 0 then .register
  else if a.toNat ≤ s.cfg.dataSize then .data (a.toNat - 1)
  else if a.toNat < aTop s.cfg then .instruction (a.toNat - iBase s.cfg)
  else if a.toNat = aTop s.cfg then .boundary
  else
    match firstClaim a 0 s.devices with
    | some d => .device d
    | none => .unpopulated

/-- The three static regions (R13): `reg_zero`, data and instruction. -/
def placeStatic : Place → Bool
  | .register => true
  | .data _ => true
  | .instruction _ => true
  | .boundary => false
  | .device _ => false
  | .unpopulated => false

/-- The Word a place of a static region holds. -/
def placePeek (s : State) : Place → Option Word
  | .register => some s.regZero
  | .data i => some (s.dataWord i)
  | .instruction i => some (s.cacheGet i)
  | .boundary => none
  | .device _ => none
  | .unpopulated => none

/-- The state with a place of a static region written (R43's first three lines); elsewhere nothing is written. -/
def placePoke (s : State) (v : Word) : Place → State
  | .register => { s with regZero := v }
  | .data i => s.setData i v
  | .instruction i => s.cacheSet i v
  | .boundary => s
  | .device _ => s
  | .unpopulated => s

/-- The Word that a place of a static region holds after `v` is pushed there: `v`, but `zext_W(v[7:0])` at field 0 of a cell
(R45, R46). -/
def placeLanded (v : Word) : Place → Word
  | .register => v
  | .data _ => v
  | .instruction i => if i % 3 = 0 then zextByte (narrow8 v) else v
  | .boundary => v
  | .device _ => v
  | .unpopulated => v

/-- The address is in one of the three static regions. -/
def State.isStatic (s : State) (a : Word) : Bool := placeStatic (s.place a)

/-- The Word a static address holds; no Word where the address is in no static region. -/
def State.peek (s : State) (a : Word) : Option Word := placePeek s (s.place a)

/-- The state with a static address written. -/
def State.poke (s : State) (a v : Word) : State := placePoke s v (s.place a)

/-- What a later load of a static address gives after `v` is pushed there. -/
def State.landed (s : State) (a v : Word) : Word := placeLanded v (s.place a)

/-! ### Device calls -/

/-- An answer with its Word taken modulo `2^W`: a device answers with Words of the profile (R27, log entry 10). -/
def wrapAnswer (w : Width) : DeviceAnswer → DeviceAnswer
  | .ok v => .ok (wrap w v)
  | .failed x => .failed (wrap w x)

/-- The answer to the next device call: the first of the script, or else the oracle's draw (R28, log entry 8). -/
def State.nextAnswer (s : State) (device : Nat) (call : DeviceCall) : DeviceAnswer :=
  match s.script with
  | a :: _ => wrapAnswer s.cfg.width a
  | [] => wrapAnswer s.cfg.width (Config.deviceAnswer s.draws s.events device call)

/-- The state after a device call: the answer is used up and the call recorded; "CORE state unchanged" otherwise. -/
def State.recordCall (s : State) (device : Nat) (call : DeviceCall) (answer : DeviceAnswer) : State :=
  { s with script := s.script.tail, draws := s.draws + 1, events := s.events ++ [⟨device, call, answer⟩] }

/-! ### The bus -/

/-- The result of a bus call (R42, R43): `Ok`, `Err(e)`, or the fault of R47, each but the last with the state after it. -/
inductive BusResult (α : Type) where
  | ok (v : α) (s : State)
  | err (e : CpuError) (s : State)
  | boundary
  deriving DecidableEq, Repr

/-- `MemRead(a, 1)` (R42). -/
def State.load (s : State) (a : Word) : BusResult Word :=
  match s.place a with
  | .register => .ok s.regZero s
  | .data i => .ok (s.dataWord i) s
  | .instruction i => .ok (s.cacheGet i) s
  | .boundary => .boundary
  | .device d =>
    match s.nextAnswer d (.load a) with
    | .ok v => .ok v (s.recordCall d (.load a) (.ok v))
    | .failed x => .err (.deviceError x) (s.recordCall d (.load a) (.failed x))
  | .unpopulated => .err (.addressNotPopulated a) s

/-- `MemWrite(a, 1, v)` (R43). -/
def State.push (s : State) (a v : Word) : BusResult Unit :=
  match s.place a with
  | .register => .ok () { s with regZero := v }
  | .data i => .ok () (s.setData i v)
  | .instruction i => .ok () (s.cacheSet i v)
  | .boundary => .boundary
  | .device d =>
    match s.nextAnswer d (.push a v) with
    | .ok x => .ok () (s.recordCall d (.push a v) (.ok x))
    | .failed x => .err (.deviceError x) (s.recordCall d (.push a v) (.failed x))
  | .unpopulated => .err (.addressNotPopulated a) s

/-! ### The diagnostic write -/

/-- How the diagnostic write ends: it succeeded, it reached `A_TOP`, or it never succeeds (R159). -/
inductive DiagnosticResult where
  | done (s : State)
  | boundary
  | hang
  deriving DecidableEq, Repr

/-- The state after a device failed one push for each payload. -/
def State.recordFailures (s : State) (device : Nat) (call : DeviceCall) : List Word → State
  | [] => s
  | x :: xs => (s.recordCall device call (.failed (wrap s.cfg.width x))).recordFailures device call xs

/-- The loop of R158 on a device: "each retry is one device push call" (R159). The scripted answers come first; after them the
oracle says which pushes fail before one succeeds, or that none does (log entry 9). -/
def retryPush (device : Nat) (call : DeviceCall) : List DeviceAnswer → State → DiagnosticResult
  | [], s =>
    match Config.retriedPush s.draws s.events device call with
    | some payloads => .done ((s.recordFailures device call payloads).recordCall device call (.ok 0))
    | none => .hang
  | .ok x :: _, s => .done (s.recordCall device call (.ok (wrap s.cfg.width x)))
  | .failed x :: rest, s => retryPush device call rest (s.recordCall device call (.failed (wrap s.cfg.width x)))

/-- `DiagnosticWrite()` (R158): push the value of `reg_zero` to `DIAG_ADDR`, and repeat while that push fails. Where no device
claims `DIAG_ADDR`, a push that fails fails in every retry (R159). -/
def State.diagnosticWrite (s : State) : DiagnosticResult :=
  match s.place s.cfg.diagAddr with
  | .register => .done (s.poke s.cfg.diagAddr s.regZero)
  | .data _ => .done (s.poke s.cfg.diagAddr s.regZero)
  | .instruction _ => .done (s.poke s.cfg.diagAddr s.regZero)
  | .boundary => .boundary
  | .device d => retryPush d (.push s.cfg.diagAddr s.regZero) s.script s
  | .unpopulated => .hang

/-! ### Ending a tick -/

/-- `STRIDE`: 3 address units in every profile (R6, R95, conflict C1; log entry 16). -/
def stride : Word := 3

/-- The advance and `Ok(())` (R95, R96). -/
def State.advance (s : State) : State :=
  { s with regZero := addW s.cfg.width s.regZero stride, result := .ok }

/-- The tick returns `Err(e)`: nothing is advanced and nothing rolled back (R92, R96). "There is no trap entry" (R162). -/
def State.escalate (s : State) (e : CpuError) : State := { s with result := .err e }

/-- Taking an error of the execute phase (R94, R156, R157): the flags decide whether the tick returns `Err(e)`, or the
instruction ends here and the tick goes on to its advance, with or without a diagnostic write. -/
def takeError (f : Flags) (e : CpuError) (s : State) : Host.Outcome State Fault Refusal :=
  match errorPolicy f with
  | .absorb => .next s.advance
  | .escalate => .next (s.escalate e)
  | .record =>
    match s.diagnosticWrite with
    | .done t => .next t.advance
    | .boundary => .fault .boundaryAddress
    | .hang => .fault .diagnosticLoop

/-- `try C` (R94): on success the instruction goes on with its next line, on an error the policy is applied. -/
def tryBus {α : Type} (f : Flags) (r : BusResult α) (continue_ : α → State → Host.Outcome State Fault Refusal) :
    Host.Outcome State Fault Refusal :=
  match r with
  | .ok v s => continue_ v s
  | .err e s => takeError f e s
  | .boundary => .fault .boundaryAddress

/-- The last line of an instruction that ends with a push: the tick then advances (R95). -/
def pushAndAdvance (f : Flags) (a v : Word) (s : State) : Host.Outcome State Fault Refusal :=
  tryBus f (s.push a v) fun _ t => .next t.advance

/-- The two loads that Compare and the arithmetic instructions begin with, `a1` before `a2` (R120, R136, R160). -/
def loadBoth (f : Flags) (a1 a2 : Word) (s : State)
    (continue_ : Word → Word → State → Host.Outcome State Fault Refusal) : Host.Outcome State Fault Refusal :=
  tryBus f (s.load a1) fun v1 s1 => tryBus f (s1.load a2) fun v2 s2 => continue_ v1 v2 s2

/-- The shape of Add, Sub and Mul (R136): load `a1`, load `a2`, push the result to `a1`. -/
def arithmetic (op : Width → Word → Word → Word) (f : Flags) (a1 a2 : Word) (s : State) :
    Host.Outcome State Fault Refusal :=
  loadBoth f a1 a2 s fun v1 v2 t => pushAndAdvance f a1 (op t.cfg.width v1 v2) t

/-! ### Fetch -/

/-- The three Words of an instruction (R70). -/
structure Fetched where
  w0 : Word
  w1 : Word
  w2 : Word
  deriving DecidableEq, Repr

/-- Fetch (R91): three bus loads at `p`, `p +w 1` and `p +w 2`, in that order; the first that fails ends it (R92). -/
def State.fetch (s : State) : BusResult Fetched :=
  match s.load s.regZero with
  | .err e t => .err e t
  | .boundary => .boundary
  | .ok w0 s1 =>
    match s1.load (addW s.cfg.width s.regZero 1) with
    | .err e t => .err e t
    | .boundary => .boundary
    | .ok w1 s2 =>
      match s2.load (addW s.cfg.width s.regZero 2) with
      | .err e t => .err e t
      | .boundary => .boundary
      | .ok w2 s3 => .ok ⟨w0, w1, w2⟩ s3

end Sys2Proof.Machine
end

