-- ==== Sys2Proof/Machine/Construct.lean ====
section
/-! DEFINITION. Construction, "the only reset" (70_reset_and_hazards.md R180, R181), the cache build (20_memory.md R65 to
R67), and the placing of one instruction where the machine fetches next. -/

namespace Sys2Proof.Machine

/-- `IMAGE_MIN = N_CELLS * CELL_BYTES` (R6, R66). -/
def imageMin (c : Config) : Nat := nCells c * cellBytes c.width

/-- What construction asks of its inputs (R7, R66, R181). -/
def constructible (c : Config) (image : List Byte) (devices : List Device) : Bool :=
  c.wf && decide (imageMin c ≤ image.length) && devices.all (Device.wf c.width)

/-- `build(IMAGE)` (R65): the first `n` cells of the bytes, in canonical form, numbered from `k`. -/
def buildCells (w : Width) : Nat → Nat → List Byte → List (Nat × CellFields)
  | 0, _, _ => []
  | n + 1, k, bytes =>
    let c := parseCell w bytes
    let rest := buildCells w n (k + 1) (bytes.drop (cellBytes w))
    if c = unlistedCell then rest else (k, c) :: rest

/-- `Construct(config, IMAGE, devices)` (R180), or none where it is refused (R181). Device answers that are settled beforehand
are the model's own input `script`, and `draws` says where the oracle's draws begin (log entry 8). -/
def construct (c : Config) (image : List Byte) (devices : List Device) (script : List DeviceAnswer) (draws : Nat) :
    Option State :=
  if constructible c image devices then
    some
      { cfg := c
        regZero := c.resetPc
        data := []
        cells := buildCells c.width (nCells c) 0 image
        devices := devices
        result := .noTick
        script := script
        draws := draws
        events := [] }
  else none

/-- `reg_zero` when it is the address of field 0 of a cell, and else the address of cell 0. -/
def State.fetchCell (s : State) : Nat :=
  if iBase s.cfg ≤ s.regZero.toNat ∧ s.regZero.toNat < aTop s.cfg ∧ (s.regZero.toNat - iBase s.cfg) % 3 = 0 then
    (s.regZero.toNat - iBase s.cfg) / 3
  else 0

/-- The state whose next fetch reads this cell (log entry 12): the cell at `reg_zero` is replaced, and where `reg_zero` is not
the address of a whole cell it is first set to that of cell 0. -/
def State.placeCell (s : State) (c : CellFields) : State :=
  { s.setCell s.fetchCell c with regZero := BitVec.ofNat 64 (iBase s.cfg + 3 * s.fetchCell) }

end Sys2Proof.Machine
end

