-- ==== Sys2Proof/Machine/Arithmetic.lean ====
section
/-! DEFINITION. Add, Sub, Mul and Div (43_arithmetic.md R131 to R136). -/

namespace Sys2Proof.Machine

/-- Add (R131): `mem[a1] <- (mem[a1] + mem[a2]) mod 2^W`. -/
def execAdd (f : Flags) (a1 a2 : Word) (s : State) : Host.Outcome State Fault Refusal := arithmetic addW f a1 a2 s

/-- Sub (R132): `mem[a1] <- (mem[a1] - mem[a2]) mod 2^W`. -/
def execSub (f : Flags) (a1 a2 : Word) (s : State) : Host.Outcome State Fault Refusal := arithmetic subW f a1 a2 s

/-- Mul (R133): `mem[a1] <- (mem[a1] * mem[a2]) mod 2^W`. -/
def execMul (f : Flags) (a1 a2 : Word) (s : State) : Host.Outcome State Fault Refusal := arithmetic mulW f a1 a2 s

/-- Div (R134): a zero divisor is a fault, tested after both loads succeed and before any push; the flags do not apply to it. -/
def execDiv (f : Flags) (a1 a2 : Word) (s : State) : Host.Outcome State Fault Refusal :=
  loadBoth f a1 a2 s fun v1 v2 t =>
    if v2 = 0 then .fault .divideByZero else pushAndAdvance f a1 (divW v1 v2) t

end Sys2Proof.Machine
end

