-- ==== Sys2Proof/Machine/Compare.lean ====
section
/-! DEFINITION. Compare (42_compare_control.md R120). Every other change of control flow is a push to address 0 (R121). -/

namespace Sys2Proof.Machine

/-- Compare (R120): load `a1`, load `a2`, add the adjustment to `reg_zero`, then the advance. -/
def execCmp (f : Flags) (a1 a2 : Word) (s : State) : Host.Outcome State Fault Refusal :=
  loadBoth f a1 a2 s fun v1 v2 t =>
    .next { t with regZero := addW t.cfg.width t.regZero (compareAdjust v1 v2) }.advance

end Sys2Proof.Machine
end

