-- ==== Sys2Proof/Machine/DataMovement.lean ====
section
/-! DEFINITION. NoOp, Load and Copy (41_data_movement.md). -/

namespace Sys2Proof.Machine

/-- "NoOp: no effect." (R110), then the advance. -/
def execNop (s : State) : Host.Outcome State Fault Refusal := .next s.advance

/-- "Load(a1,a2): `push(a1, a2)`" (R111). -/
def execLoad (f : Flags) (a1 a2 : Word) (s : State) : Host.Outcome State Fault Refusal := pushAndAdvance f a1 a2 s

/-- "Copy(a1,a2): `v = load(a1)`; `push(a2, v)`" (R112): the destination is the second operand. -/
def execCopy (f : Flags) (a1 a2 : Word) (s : State) : Host.Outcome State Fault Refusal :=
  tryBus f (s.load a1) fun v t => pushAndAdvance f a2 v t

end Sys2Proof.Machine
end

