-- ==== Sys2Proof/Machine/Dispatch.lean ====
section
/-! DEFINITION. Execute (40_engine.md R94): the decoded instruction's own rule, up to and with the advance (R95). The speed
tag is read by no rule (R77). -/

namespace Sys2Proof.Machine

def exec (i : Instr) (s : State) : Host.Outcome State Fault Refusal :=
  match i with
  | .nop => Sys2Proof.Machine.execNop s
  | .load f _ a1 a2 => Sys2Proof.Machine.execLoad f a1 a2 s
  | .copy f _ a1 a2 => Sys2Proof.Machine.execCopy f a1 a2 s
  | .cmp f _ a1 a2 => Sys2Proof.Machine.execCmp f a1 a2 s
  | .add f _ a1 a2 => Sys2Proof.Machine.execAdd f a1 a2 s
  | .sub f _ a1 a2 => Sys2Proof.Machine.execSub f a1 a2 s
  | .mul f _ a1 a2 => Sys2Proof.Machine.execMul f a1 a2 s
  | .div f _ a1 a2 => Sys2Proof.Machine.execDiv f a1 a2 s

end Sys2Proof.Machine
end

