-- ==== Sys2Proof/Machine/Step.lean ====
section
/-! DEFINITION. The tick (40_engine.md R90, R97): fetch, decode, execute, advance. -/

namespace Sys2Proof.Machine

/-- `Tick()` (R97). A fetch that fails escalates at once, whatever the flags would have been (R92). It is
total on every state, also on one that no construction gives (log entry 13). -/
def step (s : State) : Host.Outcome State Fault Refusal :=
  match s.fetch with
  | .ok words t => exec (decode words.w0 words.w1 words.w2) t
  | .err e t => .next (t.escalate e)
  | .boundary => .fault .boundaryAddress

/-- The state with a table word placed where the next fetch reads (log entry 12). -/
def State.withFetchWord (s : State) (nbits w : Nat) : State :=
  s.placeCell (parseCell s.cfg.width (tableBytes s.cfg.width nbits w))

end Sys2Proof.Machine
end

