-- ==== Sys2Proof/Machine/Pseudo.lean ====
section
/-! DEFINITION. The pseudo-instructions of 30_encoding.md R83, "each an exact expansion into one instruction"; flags and speed
tag are those of R82's plain form. -/

namespace Sys2Proof.Machine.Pseudo

/-- `LI a, imm`. -/
def li (a imm : Word) : Instr := .load .none .fast a imm

/-- `MOV dst, src`: "note the operand order of Copy". -/
def mov (dst src : Word) : Instr := .copy .none .fast src dst

/-- `JMP T` is `LOAD 0, T - 3`. -/
def jmp (w : Width) (target : Word) : Instr := .load .none .fast 0 (subW w target 3)

/-- `JMPI a` is `COPY a, 0`. -/
def jmpi (a : Word) : Instr := .copy .none .fast a 0

/-- `JREL a` is `ADD 0, a`. -/
def jrel (a : Word) : Instr := .add .none .fast 0 a

/-- `SPIN` at address `p` is `LOAD 0, P - 3`. -/
def spin (w : Width) (p : Word) : Instr := .load .none .fast 0 (subW w p 3)

/-- `STOP u` is `LOAD u, 0`, "with `u` an address no region or device claims". -/
def stop (u : Word) : Instr := .load .none .fast u 0

end Sys2Proof.Machine.Pseudo
end

