-- ==== Sys2Proof/Safety.lean ====
section
/-! DEFINITION. The terms in which statements about the machine are written: the outcomes of a tick and of a run
(00_scope.md R12, 40_engine.md R98), the invariant that every Word is a Word of the profile, and what an instruction
accesses, stores and leaves alone. -/

namespace Sys2Proof

/-! ### What an instruction reads from its syntax -/

/-- The flags an instruction carries; NoOp carries none (R80). -/
def Instr.flags : Instr → Flags
  | .nop => .none
  | .load f _ _ _ => f
  | .copy f _ _ _ => f
  | .cmp f _ _ _ => f
  | .add f _ _ _ => f
  | .sub f _ _ _ => f
  | .mul f _ _ _ => f
  | .div f _ _ _ => f

/-- The instruction with another speed tag. -/
def Instr.withSpeed (sp : Speed) : Instr → Instr
  | .nop => .nop
  | .load f _ a1 a2 => .load f sp a1 a2
  | .copy f _ a1 a2 => .copy f sp a1 a2
  | .cmp f _ a1 a2 => .cmp f sp a1 a2
  | .add f _ a1 a2 => .add f sp a1 a2
  | .sub f _ a1 a2 => .sub f sp a1 a2
  | .mul f _ a1 a2 => .mul f sp a1 a2
  | .div f _ a1 a2 => .div f sp a1 a2

/-- The addresses of the execute phase's bus calls, in the order of the instruction's rule (R160). -/
def Instr.accesses : Instr → List Word
  | .nop => []
  | .load _ _ a1 _ => [a1]
  | .copy _ _ a1 a2 => [a1, a2]
  | .cmp _ _ a1 a2 => [a1, a2]
  | .add _ _ a1 a2 => [a1, a2, a1]
  | .sub _ _ a1 a2 => [a1, a2, a1]
  | .mul _ _ a1 a2 => [a1, a2, a1]
  | .div _ _ a1 a2 => [a1, a2, a1]

/-- The address an instruction pushes to; Compare and NoOp push nowhere. -/
def Instr.destination : Instr → Option Word
  | .nop => none
  | .load _ _ a1 _ => some a1
  | .copy _ _ _ a2 => some a2
  | .cmp _ _ _ _ => none
  | .add _ _ a1 _ => some a1
  | .sub _ _ a1 _ => some a1
  | .mul _ _ a1 _ => some a1
  | .div _ _ a1 _ => some a1

/-- The divisor's address, for Div alone. -/
def Instr.divisor : Instr → Option Word
  | .nop => none
  | .load _ _ _ _ => none
  | .copy _ _ _ _ => none
  | .cmp _ _ _ _ => none
  | .add _ _ _ _ => none
  | .sub _ _ _ _ => none
  | .mul _ _ _ _ => none
  | .div _ _ _ a2 => some a2

/-- The flags ask for a diagnostic write: `ie = 0`, `nh = 1`, `nd = 0` (R156). -/
def Flags.asksDiagnostic (f : Flags) : Bool := !f.ie && f.nh && !f.nd

end Sys2Proof

namespace Sys2Proof.Machine

/-! ### Ticks and runs -/

/-- The four outcomes of a tick (R12), as the host tells them apart. -/
inductive TickOutcome where
  | ok (s : State)
  | err (e : CpuError) (s : State)
  | fault (f : Fault)
  | hang
  deriving DecidableEq, Repr

/-- The outcome of R12 that a step stands for; none for a refusal or a state whose tick returned nothing. -/
def tickOutcome : Host.Outcome State Fault Refusal → Option TickOutcome
  | .next s =>
    match s.result with
    | .ok => some (.ok s)
    | .err e => some (.err e s)
    | .noTick => none
  | .fault .diagnosticLoop => some .hang
  | .fault f => some (.fault f)
  | .refused _ => none

/-- The host calls `tick` until one returns `Err(e)` or `fuel` ticks are made, the ends (a) and (b) of R98; a fault or a hang
is "never final". -/
def runUntilErr : Nat → State → Host.Outcome State Fault Refusal
  | 0, s => .next s
  | n + 1, s =>
    match step s with
    | .next t =>
      match t.result with
      | .err _ => .next t
      | .ok => runUntilErr n t
      | .noTick => runUntilErr n t
    | .fault f => .fault f
    | .refused r => .refused r

/-- The next `k` ticks end neither in a fault nor in a hang. -/
def SafeFor (k : Nat) (s : State) : Prop := ∃ t, Host.Core.run Sys2Proof.core k s = .next t

/-! ### Words of the profile -/

/-- Every Word the machine holds is below `2^W` (R10): the register, the data, the operand fields, the address parameters and
the device bounds. -/
def State.fits (s : State) : Bool :=
  s.cfg.wf && Sys2Proof.fits s.cfg.width s.regZero && s.data.all (fun e => Sys2Proof.fits s.cfg.width e.2) &&
  s.cells.all (fun e => Sys2Proof.fits s.cfg.width e.2.a1 && Sys2Proof.fits s.cfg.width e.2.a2) &&
  s.devices.all (Device.wf s.cfg.width)

/-! ### What changed between two states -/

/-- No device was called and nothing fixed at construction moved. -/
def NoDeviceCall (s t : State) : Prop :=
  t.cfg = s.cfg ∧ t.devices = s.devices ∧ t.script = s.script ∧ t.draws = s.draws ∧ t.events = s.events

/-- `reg_zero`, the data segment and the cells are the same, and so is what construction fixed. -/
def SameCore (s t : State) : Prop :=
  t.cfg = s.cfg ∧ t.devices = s.devices ∧ t.regZero = s.regZero ∧ t.data = s.data ∧ t.cells = s.cells

/-- The tick returned `Ok(())`, advanced by 3, and wrote the Word `v` to the static address `a` and nothing else: every other
static address but 0 holds what it held, and `reg_zero` advances from `v` when `a` is 0. -/
def StoresAndAdvances (s t : State) (a v : Word) : Prop :=
  t.result = .ok ∧
  t.regZero = BitVec.ofNat 64 (((if a = 0 then v else s.regZero).toNat + 3) % 2 ^ s.cfg.width.bits) ∧
  (∀ b : Word, b ≠ 0 → t.peek b = if b = a then some (s.landed a v) else s.peek b) ∧
  NoDeviceCall s t

/-- The tick returned `Ok(())` and wrote `reg_zero` alone. -/
def MovesOnlyRegZero (s t : State) (next : Nat) : Prop :=
  t.result = .ok ∧ t.regZero = BitVec.ofNat 64 (next % 2 ^ s.cfg.width.bits) ∧ t.data = s.data ∧ t.cells = s.cells ∧
  NoDeviceCall s t

end Sys2Proof.Machine
end

