-- ==== Sys2Proof/Certificates/Slice0/Obligations.lean ====
section
/-! DEFINITION. The statements about the machine, for the provers. Every statement about a state is about any state, reached or
not, but for the hypotheses it names; every statement about a device's answers holds for every answer. -/

open Sys2Proof Sys2Proof.Machine

/-! ### Decoding and encoding -/

/-- R72, R73, R76, R78, R80: the low 8 bits of the first word are `class*32 + ie*16 + nh*8 + nd*4 + speed`, and the operands are
the other two words; the 32 bytes below 0x20 are NoOp whatever their low bits and operands. -/
def Obligations.DecodeReadsEveryField : Prop :=
  ∀ (w0 w1 w2 : Word) (f : Flags) (sp : Speed) (low : Nat),
    low = f.ie.toNat * 16 + f.nh.toNat * 8 + f.nd.toNat * 4 + sp.code →
    (w0.toNat % 256 = 0x00 + low → decode w0 w1 w2 = .nop) ∧
    (w0.toNat % 256 = 0x20 + low → decode w0 w1 w2 = .load f sp w1 w2) ∧
    (w0.toNat % 256 = 0x40 + low → decode w0 w1 w2 = .copy f sp w1 w2) ∧
    (w0.toNat % 256 = 0x60 + low → decode w0 w1 w2 = .cmp f sp w1 w2) ∧
    (w0.toNat % 256 = 0x80 + low → decode w0 w1 w2 = .add f sp w1 w2) ∧
    (w0.toNat % 256 = 0xA0 + low → decode w0 w1 w2 = .sub f sp w1 w2) ∧
    (w0.toNat % 256 = 0xC0 + low → decode w0 w1 w2 = .mul f sp w1 w2) ∧
    (w0.toNat % 256 = 0xE0 + low → decode w0 w1 w2 = .div f sp w1 w2)

/-- R73, R81: exactly one row of the opcode table covers the opcode byte, and it is the row of the instruction decoded. -/
def Obligations.OneTableRowCoversEachOpcode : Prop :=
  ∀ w0 w1 w2 : Word,
    (opcodeTable.filter fun r => r.covers (narrow8 w0)).map (fun r => r.instruction) = [(decode w0 w1 w2).opClass]

/-- R70, R72, R82: the words of an encoded instruction decode to it, for every instruction and every operand of 64 bits; and the
cell of every written instruction has the opcode byte `class*32 + ie*16 + nh*8 + nd*4 + speed`, with `.fast` where no speed is
written, and the written numbers modulo `2^W`, and decodes to the instruction of that class with these fields. A NOP written
without operands is `NOP 0, 0`, and a raw cell has the byte and the numbers written. In the last two clauses, that suffixes may stand
on a NOP without operands and that a raw cell's numbers are reduced modulo `2^W` is the model's reading of R82 (DEDUCED, log entry
18). -/
def Obligations.DecodeOfEncodedWords : Prop :=
  (∀ i : Instr, decode (zextByte (encode i).op) (encode i).a1 (encode i).a2 = i) ∧
  (∀ (w : Width) (k : OpClass) (f : Flags) (speed : Option Speed) (n1 n2 : Nat) (c : CellFields),
    assemble w (.instruction k f speed n1 n2) = c →
    c.op.toNat = k.code * 32 + f.ie.toNat * 16 + f.nh.toNat * 8 + f.nd.toNat * 4 + (speed.getD .fast).code ∧
    c.a1.toNat = n1 % 2 ^ w.bits ∧ c.a2.toNat = n2 % 2 ^ w.bits ∧
    decode (zextByte c.op) c.a1 c.a2 = Instr.ofClass k f (speed.getD .fast) c.a1 c.a2) ∧
  (∀ (w : Width) (f : Flags) (speed : Option Speed),
    assemble w (.bareNop f speed) = assemble w (.instruction .noOp f speed 0 0)) ∧
  ∀ (w : Width) (ob : Byte) (n1 n2 : Nat),
    (assemble w (.rawCell ob n1 n2)).op = ob ∧ (assemble w (.rawCell ob n1 n2)).a1.toNat = n1 % 2 ^ w.bits ∧
      (assemble w (.rawCell ob n1 n2)).a2.toNat = n2 % 2 ^ w.bits

/-- The image bytes of a well-formed instruction decode to it in every profile, and the bytes after the cell are left over. -/
def Obligations.DecodeOfEncodedBytes : Prop :=
  ∀ (w : Width) (i : Instr) (rest : List Byte),
    i.wf w = true → decodeBytes w (encodeBytes w i ++ rest) = .ok (i, rest)

/-- Every bit of a cell of a class other than NoOp is in the instruction decoded: encoding it again gives the cell's bytes. -/
def Obligations.EncodeOfDecodedBytes : Prop :=
  ∀ (w : Width) (bytes rest : List Byte) (i : Instr),
    decodeBytes w bytes = .ok (i, rest) → i ≠ .nop → i.wf w = true ∧ encodeBytes w i ++ rest = bytes

/-- Cells of 95_test_vectors.md, written out: `ADD.ie 10, 11`, `CMP.nh.nd.slow 1, 2`, `DIV.halt 3, 4`, `JMP 1100`, `COPY 30, 1033`,
`MUL 10, 10`, `SUB 20, 21` and the NoOp of byte 0x1F; and the bytes of `NOP 31, 30` (P3) and `ADD.ie 10, 11` as written. -/
def Obligations.SpecCellsDecode : Prop :=
  decodeBytes .w16 [0x90, 0x00, 0x0A, 0x00, 0x0B] = .ok (.add ⟨true, false, false⟩ .fast 10 11, []) ∧
  decodeBytes .w16 [0x6E, 0x00, 0x01, 0x00, 0x02] = .ok (.cmp ⟨false, true, true⟩ .slow 1 2, []) ∧
  decodeBytes .w16 [0xE3, 0x00, 0x03, 0x00, 0x04] = .ok (.div ⟨false, false, false⟩ .halt 3 4, []) ∧
  decodeBytes .w16 [0x20, 0x00, 0x00, 0x04, 0x49] = .ok (.load ⟨false, false, false⟩ .fast 0 1097, []) ∧
  decodeBytes .w16 [0x40, 0x00, 0x1E, 0x04, 0x09] = .ok (.copy ⟨false, false, false⟩ .fast 30 1033, []) ∧
  decodeBytes .w16 [0xC0, 0x00, 0x0A, 0x00, 0x0A] = .ok (.mul ⟨false, false, false⟩ .fast 10 10, []) ∧
  decodeBytes .w16 [0xA0, 0x00, 0x14, 0x00, 0x15] = .ok (.sub ⟨false, false, false⟩ .fast 20 21, []) ∧
  decodeBytes .w16 [0x1F, 0x13, 0x88, 0x13, 0x88] = .ok (.nop, []) ∧
  assembleBytes .w16 (.instruction .noOp ⟨false, false, false⟩ none 31 30) = [0x00, 0x00, 0x1F, 0x00, 0x1E] ∧
  assembleBytes .w16 (.instruction .add ⟨true, false, false⟩ none 10 11) = [0x90, 0x00, 0x0A, 0x00, 0x0B]

/-- R65's `BE`: byte `j` of `n` weighs `256^(n-1-j)`. -/
def Obligations.BigEndianIsTheWeightedSum : Prop :=
  ∀ bytes : List Byte,
    bigEndian bytes =
      ((List.range bytes.length).map fun j => (bytes.getD j 0).toNat * 256 ^ (bytes.length - 1 - j)).sum

/-! ### Construction -/

/-- R181: with Words of the profile for its addresses, construction is refused exactly when the image is shorter than `IMAGE_MIN`
or the configuration violates R7. -/
def Obligations.ConstructionRefusedExactlyWhenIllFormed : Prop :=
  ∀ (c : Config) (image : List Byte) (devices : List Device) (script : List DeviceAnswer) (draws : Nat),
    fits c.width c.diagAddr = true → fits c.width c.resetPc = true → (∀ d ∈ devices, d.wf c.width = true) →
    (construct c image devices script draws = none ↔
      ¬(1 ≤ c.dataSize ∧ 3 ≤ c.instructionSize ∧ c.instructionSize % 3 = 0 ∧
        c.dataSize + 1 + c.instructionSize ≤ 2 ^ c.width.bits - 1 ∧
        c.instructionSize / 3 * (1 + 2 * (c.width.bits / 8)) ≤ image.length))

/-- R31, R32, R33, R34: the state a construction leaves. -/
def Obligations.ConstructedStateIsAsTheImageSays : Prop :=
  ∀ (c : Config) (image : List Byte) (devices : List Device) (script : List DeviceAnswer) (draws : Nat) (s : State),
    construct c image devices script draws = some s →
    s.regZero = c.resetPc ∧
    (∀ i, s.dataWord i = 0) ∧
    (∀ k, k < c.instructionSize / 3 →
      (s.cell k).op = image.getD (k * cellBytes c.width) 0 ∧
      (s.cell k).a1.toNat = bigEndian ((image.drop (k * cellBytes c.width + 1)).take c.width.bytes) ∧
      (s.cell k).a2.toNat = bigEndian ((image.drop (k * cellBytes c.width + 1 + c.width.bytes)).take c.width.bytes)) ∧
    s.devices = devices ∧ s.cfg = c

/-- R68: right after construction every instruction address loads the opcode byte or the big-endian operand of the image. -/
def Obligations.ConstructionRoundTrip : Prop :=
  ∀ (c : Config) (image : List Byte) (devices : List Device) (script : List DeviceAnswer) (draws : Nat) (s : State) (i : Nat),
    construct c image devices script draws = some s → i < c.instructionSize →
    s.load (BitVec.ofNat 64 (c.dataSize + 1 + i)) =
      .ok
        (if i % 3 = 0 then zextByte (image.getD (i / 3 * cellBytes c.width) 0)
         else BitVec.ofNat 64
           (bigEndian ((image.drop (i / 3 * cellBytes c.width + 1 + (i % 3 - 1) * c.width.bytes)).take c.width.bytes)))
        s

/-- R67: bytes from `IMAGE_MIN` on have no effect. -/
def Obligations.ImageBytesPastTheMinimumAreIgnored : Prop :=
  ∀ (c : Config) (image extra : List Byte) (devices : List Device) (script : List DeviceAnswer) (draws : Nat),
    imageMin c ≤ image.length →
    construct c (image ++ extra) devices script draws = construct c image devices script draws

/-- `State.reset` is the construction of EX16 with a zero image, no devices and no settled answers: the model's choice of
configuration and image (log entries 1 to 3 and 11). -/
def Obligations.ResetIsTheZeroImageConstruction : Prop :=
  construct .ex16 (List.replicate 5120 0) [] [] 0 = some State.reset

/-- Both invariants of the model hold of every constructed machine. -/
def Obligations.ConstructedStateMeetsTheInvariants : Prop :=
  ∀ (c : Config) (image : List Byte) (devices : List Device) (script : List DeviceAnswer) (draws : Nat) (s : State),
    construct c image devices script draws = some s → Memory.wf s = true ∧ s.fits = true

/-- Both invariants of the model hold of the state after reset. -/
def Obligations.ResetMeetsTheInvariants : Prop := Memory.wf State.reset = true ∧ State.reset.fits = true

/-! ### The address space and the bus -/

/-- R41: the partition of the address space. -/
def Obligations.AddressSpacePartition : Prop :=
  ∀ (s : State) (a : Word),
    (a.toNat = 0 → s.place a = .register) ∧
    (1 ≤ a.toNat ∧ a.toNat ≤ s.cfg.dataSize → s.place a = .data (a.toNat - 1)) ∧
    (s.cfg.dataSize + 1 ≤ a.toNat ∧ a.toNat ≤ s.cfg.dataSize + s.cfg.instructionSize →
      s.place a = .instruction (a.toNat - (s.cfg.dataSize + 1))) ∧
    (a.toNat = s.cfg.dataSize + 1 + s.cfg.instructionSize → s.place a = .boundary) ∧
    (s.cfg.dataSize + 1 + s.cfg.instructionSize < a.toNat → s.place a = .unpopulated ∨ ∃ d, s.place a = .device d)

/-- R48, R50: past `A_TOP` the first device whose inclusive range contains the address has it, and an address no range contains is
not populated. -/
def Obligations.FirstDeviceInOrderClaims : Prop :=
  ∀ (s : State) (a : Word), s.cfg.dataSize + 1 + s.cfg.instructionSize < a.toNat →
    (∀ n, s.place a = .device n ↔
      ∃ d, s.devices[n]? = some d ∧ d.lo.toNat ≤ a.toNat ∧ a.toNat ≤ d.hi.toNat ∧
        ∀ m e, m < n → s.devices[m]? = some e → ¬(e.lo.toNat ≤ a.toNat ∧ a.toNat ≤ e.hi.toNat)) ∧
    (s.place a = .unpopulated ↔ ∀ e ∈ s.devices, ¬(e.lo.toNat ≤ a.toNat ∧ a.toNat ≤ e.hi.toNat))

/-- R44, R45, R46 and address 0: a push to a static region succeeds and the next load of that address gives the Word pushed, but its
low 8 bits alone at field 0 of a cell. -/
def Obligations.PushThenLoad : Prop :=
  ∀ (s : State) (a v : Word),
    (a.toNat ≤ s.cfg.dataSize → ∃ t, s.push a v = .ok () t ∧ t.load a = .ok v t) ∧
    (s.cfg.dataSize + 1 ≤ a.toNat ∧ a.toNat ≤ s.cfg.dataSize + s.cfg.instructionSize →
      ∃ t, s.push a v = .ok () t ∧
        t.load a = .ok (if (a.toNat - (s.cfg.dataSize + 1)) % 3 = 0 then BitVec.ofNat 64 (v.toNat % 256) else v) t)

/-- R44: at a data address a load returns `data[a - 1]`, a push sets it to the full Word, neither fails, and a load right after
the push returns the Word pushed. -/
def Obligations.DataAddressesHoldWholeWords : Prop :=
  ∀ (s : State) (a v : Word), 1 ≤ a.toNat → a.toNat ≤ s.cfg.dataSize →
    s.load a = .ok (s.dataWord (a.toNat - 1)) s ∧
    ∃ t, s.push a v = .ok () t ∧ t.dataWord (a.toNat - 1) = v ∧ t.load a = .ok v t

/-- A push that succeeds in a static region changes that address alone, and calls no device. -/
def Obligations.PushChangesOneAddress : Prop :=
  ∀ (s : State) (a v : Word), s.isStatic a = true →
    ∃ t, s.push a v = .ok () t ∧ t.result = s.result ∧ NoDeviceCall s t ∧ ∀ b, b ≠ a → t.peek b = s.peek b

/-- R42's and R43's last sentences: a load writes nothing of the CORE's state, nor does a push that fails, nor one to a device. -/
def Obligations.LoadsAndFailedPushesWriteNothing : Prop :=
  ∀ (s t : State) (a v : Word) (e : CpuError),
    (s.load a = .ok v t → SameCore s t) ∧ (s.load a = .err e t → SameCore s t) ∧
    (s.push a v = .err e t → SameCore s t) ∧
    ((∃ d, s.place a = .device d) → s.push a v = .ok () t → SameCore s t)

/-- What a device's answer to a load of `a` makes of the load (R42, R49): its Word, or `DeviceError` of its payload, each modulo `2^W`
(log entry 10), with the call recorded as the last event (R28), one more draw counted, `rest` the settled answers left (log entry
8), and the CORE unchanged. -/
def LoadAnswered (s : State) (d : Nat) (a : Word) (answer : DeviceAnswer) (rest : List DeviceAnswer) : Prop :=
  ∃ t, SameCore s t ∧ t.script = rest ∧ t.draws = s.draws + 1 ∧
    match answer with
    | .ok x => s.load a = .ok (wrap s.cfg.width x) t ∧ t.events = s.events ++ [⟨d, .load a, .ok (wrap s.cfg.width x)⟩]
    | .failed x =>
      s.load a = .err (.deviceError (wrap s.cfg.width x)) t ∧
        t.events = s.events ++ [⟨d, .load a, .failed (wrap s.cfg.width x)⟩]

/-- The same of a push of `v` to `a` (R43, R49): success, or `DeviceError` of the payload. -/
def PushAnswered (s : State) (d : Nat) (a v : Word) (answer : DeviceAnswer) (rest : List DeviceAnswer) : Prop :=
  ∃ t, SameCore s t ∧ t.script = rest ∧ t.draws = s.draws + 1 ∧
    match answer with
    | .ok x => s.push a v = .ok () t ∧ t.events = s.events ++ [⟨d, .push a v, .ok (wrap s.cfg.width x)⟩]
    | .failed x =>
      s.push a v = .err (.deviceError (wrap s.cfg.width x)) t ∧
        t.events = s.events ++ [⟨d, .push a v, .failed (wrap s.cfg.width x)⟩]

/-- R42, R43, R49 and R28: a call to a device takes the next answer, whatever it is: the first of the settled ones where there is one,
and else the oracle's draw (the model's choices: log entry 8 for the settled answers and the oracle, log entry 10 for the wrap). -/
def Obligations.DeviceCallsTakeTheNextAnswer : Prop :=
  ∀ (s : State) (a v : Word) (d : Nat), s.place a = .device d →
    (∀ answer rest, s.script = answer :: rest → LoadAnswered s d a answer rest ∧ PushAnswered s d a v answer rest) ∧
    (s.script = [] →
      LoadAnswered s d a (Config.deviceAnswer s.draws s.events d (.load a)) [] ∧
      PushAnswered s d a v (Config.deviceAnswer s.draws s.events d (.push a v)) [])

/-- R47: a load or push of `A_TOP` is the boundary fault, whatever devices there are, and so is a tick that fetches there. -/
def Obligations.BoundaryAddressFaults : Prop :=
  ∀ (s : State) (a v : Word), a.toNat = s.cfg.dataSize + 1 + s.cfg.instructionSize →
    s.load a = .boundary ∧ s.push a v = .boundary ∧ (s.regZero = a → step s = .fault .boundaryAddress)

/-! ### The tick -/

/-- R91, R70: fetch is three loads one after another, at `reg_zero` and the two addresses after it modulo `2^W`, each in the state the
one before left, so that a device's answers and effects are in it; in the static regions it leaves the state as it is. -/
def Obligations.FetchReadsThreeConsecutiveWords : Prop :=
  ∀ (s : State) (p1 p2 w0 w1 w2 : Word),
    p1 = BitVec.ofNat 64 ((s.regZero.toNat + 1) % 2 ^ s.cfg.width.bits) →
    p2 = BitVec.ofNat 64 ((s.regZero.toNat + 2) % 2 ^ s.cfg.width.bits) →
    (∀ s1 s2 s3, s.load s.regZero = .ok w0 s1 → s1.load p1 = .ok w1 s2 → s2.load p2 = .ok w2 s3 →
      s.fetch = .ok ⟨w0, w1, w2⟩ s3) ∧
    (s.peek s.regZero = some w0 → s.peek p1 = some w1 → s.peek p2 = some w2 → s.fetch = .ok ⟨w0, w1, w2⟩ s)

/-- R97: a step whose fetch succeeds is the execution of the instruction those three words decode to, in the state the fetch
leaves; the execution includes the advance (R95). -/
def Obligations.StepRunsTheDecodedInstruction : Prop :=
  ∀ (s t : State) (words : Fetched), s.fetch = .ok words t → step s = exec (decode words.w0 words.w1 words.w2) t

/-- A step at the address of a cell that holds an encoded instruction is the execution of that instruction in that state. -/
def Obligations.StepRunsTheCellAtRegZero : Prop :=
  ∀ (s : State) (k : Nat) (i : Instr), s.cfg.wf = true → k < nCells s.cfg →
    s.regZero.toNat = s.cfg.dataSize + 1 + 3 * k → s.cell k = encode i → step s = exec i s

/-- R122: after a Compare at cell `k - 1`, the three words read in each phase. -/
def Obligations.FetchPhasesAfterCompare : Prop :=
  ∀ (s : State) (k : Nat), s.cfg.wf = true →
    (k < nCells s.cfg → s.regZero.toNat = s.cfg.dataSize + 1 + 3 * k →
      s.fetch = .ok ⟨zextByte (s.cell k).op, (s.cell k).a1, (s.cell k).a2⟩ s) ∧
    (k + 1 < nCells s.cfg → s.regZero.toNat = s.cfg.dataSize + 1 + 3 * k + 1 →
      s.fetch = .ok ⟨(s.cell k).a1, (s.cell k).a2, zextByte (s.cell (k + 1)).op⟩ s) ∧
    (k + 1 < nCells s.cfg → s.regZero.toNat = s.cfg.dataSize + 1 + 3 * k + 2 →
      s.fetch = .ok ⟨(s.cell k).a2, zextByte (s.cell (k + 1)).op, (s.cell (k + 1)).a1⟩ s)

/-- R92: the first fetch load that fails makes the tick return its error at once: no later load, no advance and no diagnostic; one
that reaches `A_TOP` faults. -/
def Obligations.FetchFailureEscalates : Prop :=
  ∀ (s s1 s2 t : State) (p1 p2 w0 w1 : Word) (e : CpuError),
    p1 = BitVec.ofNat 64 ((s.regZero.toNat + 1) % 2 ^ s.cfg.width.bits) →
    p2 = BitVec.ofNat 64 ((s.regZero.toNat + 2) % 2 ^ s.cfg.width.bits) →
    (s.load s.regZero = .err e t → step s = .next { t with result := .err e } ∧ SameCore s t) ∧
    (s.load s.regZero = .ok w0 s1 → s1.load p1 = .err e t → step s = .next { t with result := .err e } ∧ SameCore s t) ∧
    (s.load s.regZero = .ok w0 s1 → s1.load p1 = .ok w1 s2 → s2.load p2 = .err e t →
      step s = .next { t with result := .err e } ∧ SameCore s t) ∧
    (s.load s.regZero = .boundary → step s = .fault .boundaryAddress) ∧
    (s.load s.regZero = .ok w0 s1 → s1.load p1 = .boundary → step s = .fault .boundaryAddress) ∧
    (s.load s.regZero = .ok w0 s1 → s1.load p1 = .ok w1 s2 → s2.load p2 = .boundary → step s = .fault .boundaryAddress)

/-- R62: a word written to a cell is what a later fetch of that cell reads, with the opcode kept to its low 8 bits (R46). -/
def Obligations.FetchSeesEarlierWrites : Prop :=
  ∀ (s : State) (k : Nat) (p w0 w1 w2 : Word), s.cfg.wf = true → k < nCells s.cfg →
    p.toNat = s.cfg.dataSize + 1 + 3 * k →
    ∃ t1 t2 t3, s.push p w0 = .ok () t1 ∧ t1.push (p + 1) w1 = .ok () t2 ∧ t2.push (p + 2) w2 = .ok () t3 ∧
      State.fetch { t3 with regZero := p } =
        .ok ⟨BitVec.ofNat 64 (w0.toNat % 256), w1, w2⟩ { t3 with regZero := p }

/-- R12: a tick has exactly one of the four outcomes, in every state; in particular no step refuses. -/
def Obligations.EveryTickHasAnOutcome : Prop := ∀ s : State, ∃ o, tickOutcome (step s) = some o

/-- R96, R161: a tick that returns `Err(e)` has written nothing of the CORE's state, and `reg_zero` still holds the address of the
failing instruction. -/
def Obligations.EscalatedTickWritesNothing : Prop :=
  ∀ (s t : State) (e : CpuError), step s = .next t → t.result = .err e → SameCore s t

/-- R98's last sentence: "absent device effects", a tick called again after `Err(e)` returns the same `Err(e)`. -/
def Obligations.TickAfterErrRepeatsIt : Prop :=
  ∀ (s t : State) (e : CpuError), s.devices = [] → step s = .next t → t.result = .err e → step t = .next t

/-- R151, R152: no tick returns `IllegalInstruction` or `IllegalInstructionSpeed`; every error is one of the other two. -/
def Obligations.OnlyTwoErrorsAreRaised : Prop :=
  ∀ (s t : State) (e : CpuError), step s = .next t → t.result = .err e →
    (∃ a, e = .addressNotPopulated a) ∨ ∃ x, e = .deviceError x

/-! ### The instructions on the static regions -/

/-- R110: NoOp advances `reg_zero` by 3 and changes nothing else. -/
def Obligations.NopOnlyAdvances : Prop :=
  ∀ s : State, ∃ t, exec .nop s = .next t ∧ MovesOnlyRegZero s t (s.regZero.toNat + 3)

/-- R111: LOAD stores its immediate at `a1`; at address 0 it sets `reg_zero`, which then advances. -/
def Obligations.LoadStoresItsImmediate : Prop :=
  ∀ (s : State) (f : Flags) (sp : Speed) (a1 a2 : Word), s.isStatic a1 = true →
    ∃ t, exec (.load f sp a1 a2) s = .next t ∧ StoresAndAdvances s t a1 a2

/-- R112: COPY stores the Word at `a1` at `a2`. -/
def Obligations.CopyStoresTheSourceWord : Prop :=
  ∀ (s : State) (f : Flags) (sp : Speed) (a1 a2 v : Word), s.peek a1 = some v → s.isStatic a2 = true →
    ∃ t, exec (.copy f sp a1 a2) s = .next t ∧ StoresAndAdvances s t a2 v

/-- R120: CMP moves `reg_zero` on by 4 when equal, 5 when greater as unsigned Words and 3 when less, and changes nothing else. -/
def Obligations.CompareSkipsByTheOutcome : Prop :=
  ∀ (s : State) (f : Flags) (sp : Speed) (a1 a2 v1 v2 : Word), s.peek a1 = some v1 → s.peek a2 = some v2 →
    ∃ t, exec (.cmp f sp a1 a2) s = .next t ∧
      MovesOnlyRegZero s t
        (s.regZero.toNat + (if v1.toNat = v2.toNat then 4 else if v2.toNat < v1.toNat then 5 else 3))

/-- R131: ADD stores `(mem[a1] + mem[a2]) mod 2^W` at `a1`. -/
def Obligations.AddStoresTheSum : Prop :=
  ∀ (s : State) (f : Flags) (sp : Speed) (a1 a2 v1 v2 : Word), s.peek a1 = some v1 → s.peek a2 = some v2 →
    ∃ t, exec (.add f sp a1 a2) s = .next t ∧
      StoresAndAdvances s t a1 (BitVec.ofNat 64 ((v1.toNat + v2.toNat) % 2 ^ s.cfg.width.bits))

/-- R132: SUB stores `(mem[a1] - mem[a2]) mod 2^W` at `a1`, the difference taken as an integer. -/
def Obligations.SubStoresTheDifference : Prop :=
  ∀ (s : State) (f : Flags) (sp : Speed) (a1 a2 v1 v2 : Word), s.peek a1 = some v1 → s.peek a2 = some v2 →
    ∃ t, exec (.sub f sp a1 a2) s = .next t ∧
      StoresAndAdvances s t a1 (BitVec.ofInt 64 (((v1.toNat : Int) - (v2.toNat : Int)) % (2 : Int) ^ s.cfg.width.bits))

/-- R133: MUL stores `(mem[a1] * mem[a2]) mod 2^W` at `a1`. -/
def Obligations.MulStoresTheProduct : Prop :=
  ∀ (s : State) (f : Flags) (sp : Speed) (a1 a2 v1 v2 : Word), s.peek a1 = some v1 → s.peek a2 = some v2 →
    ∃ t, exec (.mul f sp a1 a2) s = .next t ∧
      StoresAndAdvances s t a1 (BitVec.ofNat 64 (v1.toNat * v2.toNat % 2 ^ s.cfg.width.bits))

/-- R134: DIV stores `floor(mem[a1] / mem[a2])` at `a1` when the divisor is not 0. -/
def Obligations.DivStoresTheQuotient : Prop :=
  ∀ (s : State) (f : Flags) (sp : Speed) (a1 a2 v1 v2 : Word), s.peek a1 = some v1 → s.peek a2 = some v2 → v2 ≠ 0 →
    ∃ t, exec (.div f sp a1 a2) s = .next t ∧ StoresAndAdvances s t a1 (BitVec.ofNat 64 (v1.toNat / v2.toNat))

/-- R134: a zero divisor faults once both loads succeed, whatever the flags; and no other instruction faults so. -/
def Obligations.DivideByZeroFaultsExactlyThen : Prop :=
  ∀ (s : State) (i : Instr),
    exec i s = .fault .divideByZero ↔
      ∃ f sp a1 a2 v1 s1 s2, i = .div f sp a1 a2 ∧ s.load a1 = .ok v1 s1 ∧ s1.load a2 = .ok 0 s2

/-- R121: the next fetch address of each instruction that writes address 0, and nothing else is written. -/
def Obligations.WritesToAddressZeroJump : Prop :=
  ∀ (s : State) (f : Flags) (sp : Speed) (a v : Word), s.peek a = some v →
    (∃ t, exec (.load f sp 0 v) s = .next t ∧ MovesOnlyRegZero s t (v.toNat + 3)) ∧
    (∃ t, exec (.copy f sp a 0) s = .next t ∧ MovesOnlyRegZero s t (v.toNat + 3)) ∧
    (∃ t, exec (.add f sp 0 a) s = .next t ∧ MovesOnlyRegZero s t (s.regZero.toNat + v.toNat + 3)) ∧
    (v.toNat < 2 ^ s.cfg.width.bits →
      ∃ t, exec (.sub f sp 0 a) s = .next t ∧
        MovesOnlyRegZero s t (s.regZero.toNat + (2 ^ s.cfg.width.bits - v.toNat) + 3)) ∧
    (∃ t, exec (.mul f sp 0 a) s = .next t ∧ MovesOnlyRegZero s t (s.regZero.toNat * v.toNat + 3)) ∧
    (v ≠ 0 → ∃ t, exec (.div f sp 0 a) s = .next t ∧ MovesOnlyRegZero s t (s.regZero.toNat / v.toNat + 3)) ∧
    (v = 0 → exec (.div f sp 0 a) s = .fault .divideByZero)

/-- R83: the effect of each pseudo-instruction; `p` is the address of the instruction. -/
def Obligations.PseudoInstructionsDoAsNamed : Prop :=
  ∀ (s : State) (a d v target : Word), s.peek a = some v → s.isStatic d = true → fits s.cfg.width target = true →
    fits s.cfg.width s.regZero = true →
    (∃ t, exec (Pseudo.li d v) s = .next t ∧ StoresAndAdvances s t d v) ∧
    (∃ t, exec (Pseudo.mov d a) s = .next t ∧ StoresAndAdvances s t d v) ∧
    (∃ t, exec (Pseudo.jmp s.cfg.width target) s = .next t ∧ MovesOnlyRegZero s t target.toNat) ∧
    (∃ t, exec (Pseudo.jmpi a) s = .next t ∧ MovesOnlyRegZero s t (v.toNat + 3)) ∧
    (∃ t, exec (Pseudo.jrel a) s = .next t ∧ MovesOnlyRegZero s t (s.regZero.toNat + v.toNat + 3)) ∧
    (∃ t, exec (Pseudo.spin s.cfg.width s.regZero) s = .next t ∧ MovesOnlyRegZero s t s.regZero.toNat) ∧
    (∀ u, s.place u = .unpopulated →
      exec (Pseudo.stop u) s = .next { s with result := .err (.addressNotPopulated u) })

/-- When every address an instruction accesses is static, and the divisor, if it has one, is not 0, the tick returns `Ok(())` and
calls no device, whatever the instruction and its flags. -/
def Obligations.StaticAccessesComplete : Prop :=
  ∀ (s : State) (i : Instr), (∀ a ∈ i.accesses, s.isStatic a = true) →
    (∀ a, i.divisor = some a → s.peek a ≠ some 0) →
    ∃ t, exec i s = .next t ∧ t.result = .ok ∧ NoDeviceCall s t

/-- The instructions through devices as well as memory: when the bus calls of R111, R112, R120 and R136 succeed in their order, the
tick ends in the state the last of them leaves, advanced. -/
def Obligations.SuccessfulBusCallsComplete : Prop :=
  ∀ (s s1 s2 s3 : State) (f : Flags) (sp : Speed) (a1 a2 v1 v2 : Word),
    (s.push a1 a2 = .ok () s1 → exec (.load f sp a1 a2) s = .next s1.advance) ∧
    (s.load a1 = .ok v1 s1 →
      (s1.push a2 v1 = .ok () s2 → exec (.copy f sp a1 a2) s = .next s2.advance) ∧
      (s1.load a2 = .ok v2 s2 →
        (exec (.cmp f sp a1 a2) s =
          .next { s2 with
            regZero := BitVec.ofNat 64
              ((s2.regZero.toNat + (if v1.toNat = v2.toNat then 4 else if v2.toNat < v1.toNat then 5 else 3)) %
                2 ^ s2.cfg.width.bits)
            result := .ok }) ∧
        (s2.push a1 (BitVec.ofNat 64 ((v1.toNat + v2.toNat) % 2 ^ s2.cfg.width.bits)) = .ok () s3 →
          exec (.add f sp a1 a2) s = .next s3.advance) ∧
        (s2.push a1 (BitVec.ofInt 64 (((v1.toNat : Int) - (v2.toNat : Int)) % (2 : Int) ^ s2.cfg.width.bits)) = .ok () s3 →
          exec (.sub f sp a1 a2) s = .next s3.advance) ∧
        (s2.push a1 (BitVec.ofNat 64 (v1.toNat * v2.toNat % 2 ^ s2.cfg.width.bits)) = .ok () s3 →
          exec (.mul f sp a1 a2) s = .next s3.advance) ∧
        (v2 ≠ 0 → s2.push a1 (BitVec.ofNat 64 (v1.toNat / v2.toNat)) = .ok () s3 →
          exec (.div f sp a1 a2) s = .next s3.advance)))

/-- R77: the four values of `ob[1:0]`, and that no instruction reads the tag, so that Halt does not halt. -/
def Obligations.SpeedTagHasNoEffect : Prop :=
  (∀ ob : Byte,
    (ob.toNat % 4 = 0 → speedOf ob = .fast) ∧ (ob.toNat % 4 = 1 → speedOf ob = .medium) ∧
    (ob.toNat % 4 = 2 → speedOf ob = .slow) ∧ (ob.toNat % 4 = 3 → speedOf ob = .halt)) ∧
  ∀ (s : State) (i : Instr) (sp : Speed), exec (i.withSpeed sp) s = exec i s

/-- R135: the four operations on Words of the profile, as numbers. -/
def Obligations.DatapathIsUnsignedModular : Prop :=
  ∀ (w : Width) (a b : Word), a.toNat < 2 ^ w.bits → b.toNat < 2 ^ w.bits →
    (addW w a b).toNat = (a.toNat + b.toNat) % 2 ^ w.bits ∧
    (subW w a b).toNat = (if a.toNat < b.toNat then a.toNat + 2 ^ w.bits - b.toNat else a.toNat - b.toNat) ∧
    (mulW w a b).toNat = a.toNat * b.toNat % 2 ^ w.bits ∧
    (b ≠ 0 → (divW a b).toNat = a.toNat / b.toNat)

/-! ### Errors -/

/-- What the error policy makes of an error `e` raised in state `s` under flags `f` (R156's table), as the tick's outcome `o`. -/
def PolicyOutcome (f : Flags) (e : CpuError) (s : State) (o : Host.Outcome State Fault Refusal) : Prop :=
  (f.ie = true → o = .next s.advance) ∧
  (f.ie = false → f.nh = false → o = .next { s with result := .err e }) ∧
  (f.ie = false → f.nh = true → f.nd = true → o = .next s.advance) ∧
  (f.ie = false → f.nh = true → f.nd = false →
    (∀ t, s.diagnosticWrite = .done t → o = .next t.advance) ∧
    (s.diagnosticWrite = .boundary → o = .fault .boundaryAddress) ∧
    (s.diagnosticWrite = .hang → o = .fault .diagnosticLoop))

/-- R94, R156, R157: the first bus call that fails ends the instruction, whichever it is, and the policy of its flags gives the
tick's outcome: no later call is made and nothing is written in place of the failed one. -/
def Obligations.FirstFailingCallEndsTheInstruction : Prop :=
  ∀ (s s1 s2 s3 : State) (f : Flags) (sp : Speed) (a1 a2 v1 v2 : Word) (e : CpuError),
    (s.push a1 a2 = .err e s1 → PolicyOutcome f e s1 (exec (.load f sp a1 a2) s)) ∧
    (s.load a1 = .err e s1 →
      ∀ i ∈ [Instr.copy f sp a1 a2, .cmp f sp a1 a2, .add f sp a1 a2, .sub f sp a1 a2, .mul f sp a1 a2, .div f sp a1 a2],
        PolicyOutcome f e s1 (exec i s)) ∧
    (s.load a1 = .ok v1 s1 → s1.push a2 v1 = .err e s2 → PolicyOutcome f e s2 (exec (.copy f sp a1 a2) s)) ∧
    (s.load a1 = .ok v1 s1 → s1.load a2 = .err e s2 →
      ∀ i ∈ [Instr.cmp f sp a1 a2, .add f sp a1 a2, .sub f sp a1 a2, .mul f sp a1 a2, .div f sp a1 a2],
        PolicyOutcome f e s2 (exec i s)) ∧
    (s.load a1 = .ok v1 s1 → s1.load a2 = .ok v2 s2 →
      (s2.push a1 (addW s2.cfg.width v1 v2) = .err e s3 → PolicyOutcome f e s3 (exec (.add f sp a1 a2) s)) ∧
      (s2.push a1 (subW s2.cfg.width v1 v2) = .err e s3 → PolicyOutcome f e s3 (exec (.sub f sp a1 a2) s)) ∧
      (s2.push a1 (mulW s2.cfg.width v1 v2) = .err e s3 → PolicyOutcome f e s3 (exec (.mul f sp a1 a2) s)) ∧
      (v2 ≠ 0 → s2.push a1 (divW v1 v2) = .err e s3 → PolicyOutcome f e s3 (exec (.div f sp a1 a2) s)))

/-- R50, R156, R157: an instruction that meets an address claimed by nothing, after static ones alone: absorbed without a diagnostic
it leaves everything but the advance as it was, and escalated it returns `AddressNotPopulated` of that address. -/
def Obligations.UnpopulatedAccessIsAbsorbedOrEscalated : Prop :=
  ∀ (s : State) (i : Instr) (before after : List Word) (a : Word),
    i.accesses = before ++ a :: after → (∀ b ∈ before, s.isStatic b = true) → s.place a = .unpopulated →
    (i.flags.ie = true ∨ (i.flags.nh = true ∧ i.flags.nd = true) →
      ∃ t, exec i s = .next t ∧ MovesOnlyRegZero s t (s.regZero.toNat + 3)) ∧
    (i.flags.ie = false → i.flags.nh = false →
      exec i s = .next { s with result := .err (.addressNotPopulated a) })

/-- R158: under `ie = 0, nh = 1, nd = 0` the tick returns `Ok(())` and has written the failing instruction's address to `DIAG_ADDR`,
where that address is static; nothing else is written. -/
def Obligations.DiagnosticRecordsTheFailingAddress : Prop :=
  ∀ (s : State) (i : Instr) (before after : List Word) (a : Word),
    i.accesses = before ++ a :: after → (∀ b ∈ before, s.isStatic b = true) → s.place a = .unpopulated →
    i.flags = ⟨false, true, false⟩ → s.isStatic s.cfg.diagAddr = true →
    ∃ t, exec i s = .next t ∧ StoresAndAdvances s t s.cfg.diagAddr s.regZero

/-- R159: the diagnostic write hangs at once where nothing claims `DIAG_ADDR`, and faults where it is `A_TOP`. -/
def Obligations.DiagnosticWriteHangsOrFaults : Prop :=
  ∀ (s : State) (i : Instr) (before after : List Word) (a : Word),
    i.accesses = before ++ a :: after → (∀ b ∈ before, s.isStatic b = true) → s.place a = .unpopulated →
    i.flags = ⟨false, true, false⟩ →
    (s.place s.cfg.diagAddr = .unpopulated → exec i s = .fault .diagnosticLoop) ∧
    (s.cfg.diagAddr.toNat = s.cfg.dataSize + 1 + s.cfg.instructionSize → exec i s = .fault .boundaryAddress)

/-- R158, R159: on a device that fails its next pushes and then takes one, the diagnostic write pushes the value of `reg_zero` once for
each failure and once more, each one device call in order, and the CORE is as before. That the settled answers of `script` are the
ones taken first is the model's choice (log entries 8 and 9), and so is recording each payload modulo `2^W` (log entry 10). -/
def Obligations.DiagnosticWriteRetriesUntilTaken : Prop :=
  ∀ (s : State) (d : Nat) (failures : List Word) (x : Word) (rest : List DeviceAnswer),
    s.place s.cfg.diagAddr = .device d → s.script = failures.map .failed ++ .ok x :: rest →
    ∃ t, s.diagnosticWrite = .done t ∧ SameCore s t ∧ t.script = rest ∧ t.draws = s.draws + failures.length + 1 ∧
      t.events = s.events ++
        failures.map (fun y => ⟨d, .push s.cfg.diagAddr s.regZero, .failed (wrap s.cfg.width y)⟩) ++
        [⟨d, .push s.cfg.diagAddr s.regZero, .ok (wrap s.cfg.width x)⟩]

/-- R159: past the settled answers the oracle decides whether the device ever takes the push (the model's choices: log entry 9 for this
oracle, log entry 8 for the settled answers, log entry 10 for the payloads modulo `2^W`): where it never does, the diagnostic write
hangs. -/
def Obligations.DiagnosticWriteEndsAsTheOracleSays : Prop :=
  ∀ (s : State) (d : Nat) (failures : List Word),
    s.place s.cfg.diagAddr = .device d → s.script = failures.map .failed →
    match Config.retriedPush (s.draws + failures.length)
        (s.events ++ failures.map (fun y => ⟨d, .push s.cfg.diagAddr s.regZero, .failed (wrap s.cfg.width y)⟩)) d
        (.push s.cfg.diagAddr s.regZero) with
    | some more => ∃ t, s.diagnosticWrite = .done t ∧ SameCore s t ∧ t.draws = s.draws + failures.length + more.length + 1
    | none => s.diagnosticWrite = .hang

/-- R47, R160: a bus call that reaches `A_TOP` after the earlier ones have succeeded, in memory or on devices, faults whichever call of
whichever instruction it is and whatever the flags. The push of ADD, SUB, MUL and DIV is not among them: its address is that of the
first load, which would have faulted. The last clause says it of the addresses alone, where the earlier ones are static. -/
def Obligations.BoundaryAccessFaultsTheInstruction : Prop :=
  (∀ (s s1 : State) (f : Flags) (sp : Speed) (a1 a2 v1 : Word),
    (s.push a1 a2 = .boundary → exec (.load f sp a1 a2) s = .fault .boundaryAddress) ∧
    (s.load a1 = .boundary →
      ∀ i ∈ [Instr.copy f sp a1 a2, .cmp f sp a1 a2, .add f sp a1 a2, .sub f sp a1 a2, .mul f sp a1 a2, .div f sp a1 a2],
        exec i s = .fault .boundaryAddress) ∧
    (s.load a1 = .ok v1 s1 →
      (s1.push a2 v1 = .boundary → exec (.copy f sp a1 a2) s = .fault .boundaryAddress) ∧
      (s1.load a2 = .boundary →
        ∀ i ∈ [Instr.cmp f sp a1 a2, .add f sp a1 a2, .sub f sp a1 a2, .mul f sp a1 a2, .div f sp a1 a2],
          exec i s = .fault .boundaryAddress))) ∧
  ∀ (s : State) (i : Instr) (before after : List Word) (a : Word),
    i.accesses = before ++ a :: after → (∀ b ∈ before, s.isStatic b = true) →
    a.toNat = s.cfg.dataSize + 1 + s.cfg.instructionSize → exec i s = .fault .boundaryAddress

/-! ### The machine as a whole -/

/-- The frame of every instruction, whether it completes, is absorbed or escalates, and with devices or without: no static address
but 0, the instruction's destination and, where its flags ask for a diagnostic, `DIAG_ADDR`, reads otherwise than before. -/
def Obligations.FrameOfEveryInstruction : Prop :=
  ∀ (s t : State) (i : Instr), exec i s = .next t →
    t.cfg = s.cfg ∧ t.devices = s.devices ∧
    ∀ b : Word, b ≠ 0 → i.destination ≠ some b → ¬(i.flags.asksDiagnostic = true ∧ b = s.cfg.diagAddr) →
      t.peek b = s.peek b

/-- R95: a tick that returns `Ok(())` advances `reg_zero` by 3 modulo `2^W`, unless the instruction is a Compare or pushes to
address 0; after an absorbed error too. -/
def Obligations.OkTickAdvancesByThree : Prop :=
  ∀ (s t : State) (i : Instr), exec i s = .next t → t.result = .ok → i.destination ≠ some 0 → i.opClass ≠ .compare →
    t.regZero = BitVec.ofNat 64 ((s.regZero.toNat + 3) % 2 ^ s.cfg.width.bits)

/-- Every step keeps the canonical form of the data segment and the cells: no access reaches an index outside them. -/
def Obligations.StepKeepsMemoryCanonical : Prop :=
  ∀ s t : State, s.cfg.wf = true → Memory.wf s = true → step s = .next t → t.cfg.wf = true ∧ Memory.wf t = true

/-- R10, R21: every step keeps every Word of the machine below `2^W`, in each of the three profiles. -/
def Obligations.StepKeepsWordsOfTheProfile : Prop := ∀ s t : State, s.fits = true → step s = .next t → t.fits = true

/-- R20, R27, R28: no step changes the configuration or the device list, and the record of device calls only grows. -/
def Obligations.StepKeepsConfigurationAndDevices : Prop :=
  ∀ s t : State, step s = .next t → t.cfg = s.cfg ∧ t.devices = s.devices ∧ s.events <+: t.events

/-- Without devices no step draws from the oracle, uses a settled answer or records a call. -/
def Obligations.WithoutDevicesNothingIsDrawn : Prop :=
  ∀ s t : State, s.devices = [] → step s = .next t → NoDeviceCall s t
end

