-- ==== Sys2Proof/Laws/State.lean ====
section
/-! SUPPORT. One lemma per field per state update, so that no later proof unfolds a record update. -/

namespace Sys2Proof.Machine.State

variable (s : State) (i k : Nat) (v : Word) (c : CellFields) (e : CpuError) (d : Nat) (call : DeviceCall)
  (ans : DeviceAnswer)

/-! ### The advance -/

@[simp] theorem advance_cfg : s.advance.cfg = s.cfg := rfl
@[simp] theorem advance_regZero : s.advance.regZero = addW s.cfg.width s.regZero stride := rfl
@[simp] theorem advance_data : s.advance.data = s.data := rfl
@[simp] theorem advance_cells : s.advance.cells = s.cells := rfl
@[simp] theorem advance_devices : s.advance.devices = s.devices := rfl
@[simp] theorem advance_result : s.advance.result = .ok := rfl
@[simp] theorem advance_script : s.advance.script = s.script := rfl
@[simp] theorem advance_draws : s.advance.draws = s.draws := rfl
@[simp] theorem advance_events : s.advance.events = s.events := rfl

/-! ### Escalation -/

@[simp] theorem escalate_cfg : (s.escalate e).cfg = s.cfg := rfl
@[simp] theorem escalate_regZero : (s.escalate e).regZero = s.regZero := rfl
@[simp] theorem escalate_data : (s.escalate e).data = s.data := rfl
@[simp] theorem escalate_cells : (s.escalate e).cells = s.cells := rfl
@[simp] theorem escalate_devices : (s.escalate e).devices = s.devices := rfl
@[simp] theorem escalate_result : (s.escalate e).result = .err e := rfl
@[simp] theorem escalate_script : (s.escalate e).script = s.script := rfl
@[simp] theorem escalate_draws : (s.escalate e).draws = s.draws := rfl
@[simp] theorem escalate_events : (s.escalate e).events = s.events := rfl

/-! ### A data word -/

@[simp] theorem setData_cfg : (s.setData i v).cfg = s.cfg := rfl
@[simp] theorem setData_regZero : (s.setData i v).regZero = s.regZero := rfl
@[simp] theorem setData_data : (s.setData i v).data = sparseSet unlistedWord s.data i v := rfl
@[simp] theorem setData_cells : (s.setData i v).cells = s.cells := rfl
@[simp] theorem setData_devices : (s.setData i v).devices = s.devices := rfl
@[simp] theorem setData_result : (s.setData i v).result = s.result := rfl
@[simp] theorem setData_script : (s.setData i v).script = s.script := rfl
@[simp] theorem setData_draws : (s.setData i v).draws = s.draws := rfl
@[simp] theorem setData_events : (s.setData i v).events = s.events := rfl

/-! ### A cell -/

@[simp] theorem setCell_cfg : (s.setCell k c).cfg = s.cfg := rfl
@[simp] theorem setCell_regZero : (s.setCell k c).regZero = s.regZero := rfl
@[simp] theorem setCell_data : (s.setCell k c).data = s.data := rfl
@[simp] theorem setCell_cells : (s.setCell k c).cells = sparseSet unlistedCell s.cells k c := rfl
@[simp] theorem setCell_devices : (s.setCell k c).devices = s.devices := rfl
@[simp] theorem setCell_result : (s.setCell k c).result = s.result := rfl
@[simp] theorem setCell_script : (s.setCell k c).script = s.script := rfl
@[simp] theorem setCell_draws : (s.setCell k c).draws = s.draws := rfl
@[simp] theorem setCell_events : (s.setCell k c).events = s.events := rfl

@[simp] theorem cacheSet_cfg : (s.cacheSet i v).cfg = s.cfg := rfl
@[simp] theorem cacheSet_regZero : (s.cacheSet i v).regZero = s.regZero := rfl
@[simp] theorem cacheSet_data : (s.cacheSet i v).data = s.data := rfl
@[simp] theorem cacheSet_cells : (s.cacheSet i v).cells =
    sparseSet unlistedCell s.cells (i / 3) (fieldSet (s.cell (i / 3)) (i % 3) v) := rfl
@[simp] theorem cacheSet_devices : (s.cacheSet i v).devices = s.devices := rfl
@[simp] theorem cacheSet_result : (s.cacheSet i v).result = s.result := rfl
@[simp] theorem cacheSet_script : (s.cacheSet i v).script = s.script := rfl
@[simp] theorem cacheSet_draws : (s.cacheSet i v).draws = s.draws := rfl
@[simp] theorem cacheSet_events : (s.cacheSet i v).events = s.events := rfl

/-! ### A device call -/

@[simp] theorem recordCall_cfg : (s.recordCall d call ans).cfg = s.cfg := rfl
@[simp] theorem recordCall_regZero : (s.recordCall d call ans).regZero = s.regZero := rfl
@[simp] theorem recordCall_data : (s.recordCall d call ans).data = s.data := rfl
@[simp] theorem recordCall_cells : (s.recordCall d call ans).cells = s.cells := rfl
@[simp] theorem recordCall_devices : (s.recordCall d call ans).devices = s.devices := rfl
@[simp] theorem recordCall_result : (s.recordCall d call ans).result = s.result := rfl
@[simp] theorem recordCall_script : (s.recordCall d call ans).script = s.script.tail := rfl
@[simp] theorem recordCall_draws : (s.recordCall d call ans).draws = s.draws + 1 := rfl
@[simp] theorem recordCall_events : (s.recordCall d call ans).events = s.events ++ [⟨d, call, ans⟩] := rfl

end Sys2Proof.Machine.State
end

