-- ==== Sys2Proof/Laws/Memory.lean ====
section
/-! SUPPORT. Sparse arrays: reading after writing, and that every write keeps the canonical form; then the same of the data
segment and the cells. -/

namespace Sys2Proof.Machine

section Sparse

variable {α : Type} (d : α) (m : List (Nat × α)) (j k n : Nat) (x : α)

theorem sparseGet_erase : sparseGet d (sparseErase m k) j = if j = k then d else sparseGet d m j := by
  induction m with
  | nil => simp [sparseErase, sparseGet]
  | cons e m ih =>
    simp only [sparseErase] at ih
    by_cases he : e.1 = k <;> by_cases hj : e.1 = j <;>
      simp_all [sparseErase, sparseGet]

theorem sparseGet_insert (hk : ∀ e ∈ m, e.1 ≠ k) :
    sparseGet d (sparseInsert k x m) j = if j = k then x else sparseGet d m j := by
  induction m with
  | nil => simp only [sparseInsert, sparseGet, @eq_comm _ j k]
  | cons e m ih =>
    have ih := ih fun e he => hk e (List.mem_cons_of_mem _ he)
    have hne : e.1 ≠ k := hk e List.mem_cons_self
    simp only [sparseInsert]
    split
    · simp only [sparseGet, @eq_comm _ j k]
    · simp only [sparseGet, ih]
      by_cases hj : e.1 = j
      · simp [hj, hj ▸ hne]
      · simp [hj]

theorem sparseErase_ne : ∀ e ∈ sparseErase m k, e.1 ≠ k := by
  intro e he
  simpa using (List.mem_filter.mp he).2

/-- The law of a write: the written index holds the written value, every other index what it held. -/
theorem sparseGet_set [DecidableEq α] : sparseGet d (sparseSet d m k x) j = if j = k then x else sparseGet d m j := by
  unfold sparseSet
  split
  · next h => rw [sparseGet_erase, h]
  · rw [sparseGet_insert d _ _ _ _ (sparseErase_ne m k), sparseGet_erase]
    split <;> rfl

theorem mem_sparseInsert {e : Nat × α} : e ∈ sparseInsert k x m ↔ e = (k, x) ∨ e ∈ m := by
  induction m with
  | nil => simp [sparseInsert]
  | cons a m ih =>
    simp only [sparseInsert]
    split <;> simp [ih, or_left_comm]

theorem sparseErase_wf [DecidableEq α] (h : sparseWf d n m = true) : sparseWf d n (sparseErase m k) = true := by
  induction m with
  | nil => rfl
  | cons e m ih =>
    simp only [sparseWf, Bool.and_eq_true, List.all_eq_true, decide_eq_true_eq] at h
    have ih := ih h.2
    simp only [sparseErase, List.filter_cons] at ih ⊢
    split
    · simp only [sparseWf, Bool.and_eq_true, List.all_eq_true, decide_eq_true_eq]
      exact ⟨⟨h.1.1, fun a ha => h.1.2 a (List.mem_filter.mp ha).1⟩, ih⟩
    · exact ih

theorem sparseInsert_wf [DecidableEq α] (h : sparseWf d n m = true) (hk : k < n) (hx : x ≠ d)
    (hne : ∀ e ∈ m, e.1 ≠ k) : sparseWf d n (sparseInsert k x m) = true := by
  induction m with
  | nil => simp [sparseInsert, sparseWf, hk, hx]
  | cons e m ih =>
    have ih := fun hm => ih hm fun a ha => hne a (List.mem_cons_of_mem _ ha)
    have hek : e.1 ≠ k := hne e List.mem_cons_self
    simp only [sparseWf, Bool.and_eq_true, List.all_eq_true, decide_eq_true_eq] at h
    simp only [sparseInsert]
    split
    · next hlt =>
      simp only [sparseWf, Bool.and_eq_true, List.all_eq_true, decide_eq_true_eq]
      refine ⟨⟨⟨hk, hx⟩, ?_⟩, h⟩
      intro a ha
      rcases List.mem_cons.mp ha with rfl | ha
      · exact hlt
      · exact hlt.trans (h.1.2 a ha)
    · next hnlt =>
      simp only [sparseWf, Bool.and_eq_true, List.all_eq_true, decide_eq_true_eq]
      refine ⟨⟨h.1.1, ?_⟩, ih h.2⟩
      intro a ha
      rcases (mem_sparseInsert m k x).mp ha with rfl | ha
      · simp only; omega
      · exact h.1.2 a ha

/-- A write below the bound keeps the canonical form. -/
theorem sparseSet_wf [DecidableEq α] (h : sparseWf d n m = true) (hk : k < n) : sparseWf d n (sparseSet d m k x) = true := by
  unfold sparseSet
  split
  · exact sparseErase_wf d m k n h
  · next hx => exact sparseInsert_wf d _ k n x (sparseErase_wf d m k n h) hk hx (sparseErase_ne m k)

/-- Every entry of a written array is an old one or the one written. -/
theorem mem_sparseSet [DecidableEq α] {e : Nat × α} (h : e ∈ sparseSet d m k x) : e = (k, x) ∨ e ∈ m := by
  unfold sparseSet at h
  split at h
  · exact .inr (List.mem_filter.mp h).1
  · rcases (mem_sparseInsert _ k x).mp h with h | h
    · exact .inl h
    · exact .inr (List.mem_filter.mp h).1

/-- What an array holds at an index is listed in it, or is what an unlisted index holds. -/
theorem sparseGet_mem : sparseGet d m k = d ∨ (k, sparseGet d m k) ∈ m := by
  induction m with
  | nil => exact .inl rfl
  | cons e m ih =>
    simp only [sparseGet]
    split
    · next h => exact .inr (by subst h; exact List.mem_cons_self)
    · exact ih.imp id (List.mem_cons_of_mem _)

end Sparse

/-! ### The data segment and the cells -/

theorem dataWord_setData (s : State) (i j : Nat) (v : Word) :
    (s.setData i v).dataWord j = if j = i then v else s.dataWord j := sparseGet_set ..

theorem cell_setCell (s : State) (k j : Nat) (c : CellFields) :
    (s.setCell k c).cell j = if j = k then c else s.cell j := sparseGet_set ..

@[simp] theorem dataWord_setCell (s : State) (k j : Nat) (c : CellFields) : (s.setCell k c).dataWord j = s.dataWord j := rfl
@[simp] theorem dataWord_cacheSet (s : State) (i j : Nat) (v : Word) : (s.cacheSet i v).dataWord j = s.dataWord j := rfl
@[simp] theorem cell_setData (s : State) (i k : Nat) (v : Word) : (s.setData i v).cell k = s.cell k := rfl
@[simp] theorem cacheGet_setData (s : State) (i j : Nat) (v : Word) : (s.setData i v).cacheGet j = s.cacheGet j := rfl
@[simp] theorem cell_advance (s : State) (k : Nat) : s.advance.cell k = s.cell k := rfl
@[simp] theorem dataWord_advance (s : State) (i : Nat) : s.advance.dataWord i = s.dataWord i := rfl
@[simp] theorem cacheGet_advance (s : State) (i : Nat) : s.advance.cacheGet i = s.cacheGet i := rfl

theorem fieldGet_fieldSet_same (c : CellFields) (f : Nat) (v : Word) :
    fieldGet (fieldSet c f v) f = if f = 0 then zextByte (narrow8 v) else v := by
  rcases f with _ | _ | f <;> rfl

theorem fieldGet_fieldSet_other (c : CellFields) {f g : Nat} (v : Word) (hf : f < 3) (hg : g < 3) (h : g ≠ f) :
    fieldGet (fieldSet c f v) g = fieldGet c g := by
  rcases f with _ | _ | _ | f <;> rcases g with _ | _ | _ | g <;> first | rfl | omega

/-- `CacheSet` then `CacheGet` (R45, R46): the field written reads back, a byte at field 0, and every other as before. -/
theorem cacheGet_cacheSet (s : State) (i j : Nat) (v : Word) :
    (s.cacheSet i v).cacheGet j = if j = i then (if i % 3 = 0 then zextByte (narrow8 v) else v) else s.cacheGet j := by
  unfold State.cacheGet State.cacheSet
  rw [cell_setCell]
  by_cases hk : j / 3 = i / 3
  · rw [if_pos hk]
    by_cases hf : j % 3 = i % 3
    · have hji : j = i := by omega
      rw [if_pos hji, hf, fieldGet_fieldSet_same]
    · have hji : j ≠ i := fun h => hf (by rw [h])
      rw [if_neg hji, fieldGet_fieldSet_other _ _ (by omega) (by omega) hf, hk]
  · have hji : j ≠ i := fun h => hk (by rw [h])
    rw [if_neg hk, if_neg hji]

/-! ### The canonical form -/

theorem Memory.wf_iff (s : State) : Memory.wf s = true ↔
    sparseWf unlistedWord s.cfg.dataSize s.data = true ∧ sparseWf unlistedCell (nCells s.cfg) s.cells = true := by
  simp [Memory.wf]

/-- The canonical form is a property of the configuration and the two arrays alone. -/
theorem Memory.wf_congr {s t : State} (hc : t.cfg = s.cfg) (hd : t.data = s.data) (hk : t.cells = s.cells) :
    Memory.wf t = Memory.wf s := by
  unfold Memory.wf
  rw [hc, hd, hk]

theorem Memory.wf_setData {s : State} (h : Memory.wf s = true) {i : Nat} (hi : i < s.cfg.dataSize) (v : Word) :
    Memory.wf (s.setData i v) = true := by
  rw [Memory.wf_iff] at h ⊢
  exact ⟨sparseSet_wf _ _ _ _ _ h.1 hi, h.2⟩

theorem Memory.wf_setCell {s : State} (h : Memory.wf s = true) {k : Nat} (hk : k < nCells s.cfg) (c : CellFields) :
    Memory.wf (s.setCell k c) = true := by
  rw [Memory.wf_iff] at h ⊢
  exact ⟨h.1, sparseSet_wf _ _ _ _ _ h.2 hk⟩

theorem Memory.wf_cacheSet {s : State} (h : Memory.wf s = true) {i : Nat} (hi : i / 3 < nCells s.cfg) (v : Word) :
    Memory.wf (s.cacheSet i v) = true := Memory.wf_setCell h hi _

theorem Memory.wf_reset : Memory.wf State.reset = true := rfl

end Sys2Proof.Machine
end

