-- ==== Sys2Proof/Laws/Word.lean ====
section
/-! SUPPORT. Reduction modulo `2^W`, the datapath as arithmetic on numbers, and the helpers on bytes. -/

namespace Sys2Proof

theorem Width.bits_le (w : Width) : w.bits ≤ 64 := by cases w <;> decide

theorem Width.pow_le (w : Width) : 2 ^ w.bits ≤ 2 ^ 64 := Nat.pow_le_pow_right (by decide) w.bits_le

theorem Width.pow_pos (w : Width) : 0 < 2 ^ w.bits := Nat.two_pow_pos _

/-- `2^W` divides `2^64`, so reducing modulo `2^W` after a 64-bit wrap is reducing once. -/
theorem Width.pow_dvd (w : Width) : 2 ^ w.bits ∣ 2 ^ 64 := Nat.pow_dvd_pow 2 w.bits_le

theorem Width.le_pow (w : Width) : 2 ^ 16 ≤ 2 ^ w.bits := by cases w <;> decide

theorem Width.eight_mul_bytes (w : Width) : 8 * w.bytes = w.bits := by cases w <;> decide

theorem fits_iff (w : Width) (v : Word) : fits w v = true ↔ v.toNat < 2 ^ w.bits := by simp [fits]

@[simp] theorem wrap_toNat (w : Width) (v : Word) : (wrap w v).toNat = v.toNat % 2 ^ w.bits := by
  have h : v.toNat % 2 ^ w.bits < 2 ^ 64 := (Nat.mod_lt _ w.pow_pos).trans_le w.pow_le
  simp only [wrap, BitVec.toNat_ofNat]
  exact Nat.mod_eq_of_lt h

theorem fits_wrap (w : Width) (v : Word) : fits w (wrap w v) = true := by
  rw [fits_iff, wrap_toNat]
  exact Nat.mod_lt _ w.pow_pos

/-- A Word of the profile is its own reduction. -/
theorem wrap_of_fits {w : Width} {v : Word} (h : fits w v = true) : wrap w v = v := by
  apply BitVec.eq_of_toNat_eq
  rw [wrap_toNat]
  exact Nat.mod_eq_of_lt ((fits_iff w v).mp h)

@[simp] theorem zextByte_toNat (b : Byte) : (zextByte b).toNat = b.toNat := by
  have hb : b.toNat < 2 ^ 8 := b.isLt
  simp only [zextByte, BitVec.toNat_setWidth]
  omega

theorem fits_zextByte (w : Width) (b : Byte) : fits w (zextByte b) = true := by
  rw [fits_iff]
  have hb : b.toNat < 2 ^ 8 := b.isLt
  have := w.le_pow
  rw [zextByte_toNat]
  omega

@[simp] theorem narrow8_zextByte (b : Byte) : narrow8 (zextByte b) = b := by
  apply BitVec.eq_of_toNat_eq
  simp [narrow8, zextByte]

@[simp] theorem narrow8_toNat (v : Word) : (narrow8 v).toNat = v.toNat % 256 := by simp [narrow8]


namespace Machine

theorem addW_toNat (w : Width) (a b : Word) : (addW w a b).toNat = (a.toNat + b.toNat) % 2 ^ w.bits := by
  rw [addW, wrap_toNat, BitVec.toNat_add, Nat.mod_mod_of_dvd _ w.pow_dvd]

theorem mulW_toNat (w : Width) (a b : Word) : (mulW w a b).toNat = (a.toNat * b.toNat) % 2 ^ w.bits := by
  rw [mulW, wrap_toNat, BitVec.toNat_mul, Nat.mod_mod_of_dvd _ w.pow_dvd]

theorem subW_toNat (w : Width) (a b : Word) :
    ((subW w a b).toNat : Int) = ((a.toNat : Int) - b.toNat) % ((2 ^ w.bits : Nat) : Int) := by
  rw [subW, wrap_toNat, BitVec.toNat_sub, Nat.mod_mod_of_dvd _ w.pow_dvd]
  have hb : b.toNat < 2 ^ 64 := b.isLt
  obtain ⟨q, hq⟩ := w.pow_dvd
  rw [Int.natCast_mod, Nat.cast_add, Nat.cast_sub hb.le]
  have e : ((2 ^ 64 : Nat) : Int) - b.toNat + a.toNat
      = ((a.toNat : Int) - b.toNat) + ((2 ^ w.bits : Nat) : Int) * q := by
    rw [hq]
    push_cast
    ring
  rw [e, Int.add_mul_emod_self_left]

theorem divW_toNat (a b : Word) : (divW a b).toNat = a.toNat / b.toNat := by simp [divW]

theorem fits_addW (w : Width) (a b : Word) : fits w (addW w a b) = true := fits_wrap ..
theorem fits_subW (w : Width) (a b : Word) : fits w (subW w a b) = true := fits_wrap ..
theorem fits_mulW (w : Width) (a b : Word) : fits w (mulW w a b) = true := fits_wrap ..

theorem fits_divW {w : Width} {a : Word} (b : Word) (h : fits w a = true) : fits w (divW a b) = true := by
  rw [fits_iff] at h ⊢
  rw [divW_toNat]
  exact (Nat.div_le_self _ _).trans_lt h

end Machine

end Sys2Proof
end

