-- ==== Sys2Proof/Laws/Bus.lean ====
section
/-! SUPPORT. What resolving an address, a bus load, a bus push, a device call and the diagnostic write can do, said once for
each. -/

namespace Sys2Proof.Machine

/-! ### Resolving an address -/

theorem place_register_iff (s : State) (a : Word) : s.place a = .register ↔ a = 0 := by
  have h0 : a.toNat = 0 ↔ a = 0 := by
    rw [← BitVec.toNat_inj]; rfl
  rw [← h0]
  unfold State.place
  split_ifs <;> simp_all
  split <;> simp

theorem place_zero (s : State) : s.place 0#64 = .register := (place_register_iff s 0).mpr rfl

theorem place_data {s : State} {a : Word} {i : Nat} (h : s.place a = .data i) :
    a.toNat = i + 1 ∧ i < s.cfg.dataSize := by
  unfold State.place at h
  split_ifs at h with h0 h1 h2 h3
  · obtain rfl : a.toNat - 1 = i := by simpa using h
    omega
  · revert h; split <;> simp

theorem place_instruction {s : State} {a : Word} {i : Nat} (h : s.place a = .instruction i) :
    a.toNat = iBase s.cfg + i ∧ i < s.cfg.instructionSize := by
  unfold State.place at h
  split_ifs at h with h0 h1 h2 h3
  · obtain rfl : a.toNat - iBase s.cfg = i := by simpa using h
    simp only [iBase, aTop] at *
    omega
  · revert h; split <;> simp

theorem place_boundary {s : State} {a : Word} (h : s.place a = .boundary) : a.toNat = aTop s.cfg := by
  unfold State.place at h
  split_ifs at h with h0 h1 h2 h3
  · exact h3
  · revert h; split <;> simp

/-- A state with the same configuration and devices resolves every address alike. -/
theorem place_congr {s t : State} (hc : t.cfg = s.cfg) (hd : t.devices = s.devices) (a : Word) :
    t.place a = s.place a := by
  unfold State.place
  rw [hc, hd]

theorem isStatic_iff (s : State) (a : Word) : s.isStatic a = true ↔
    s.place a = .register ∨ (∃ i, s.place a = .data i) ∨ ∃ i, s.place a = .instruction i := by
  unfold State.isStatic
  cases s.place a <;> simp [placeStatic]

theorem isStatic_iff_peek (s : State) (a : Word) : s.isStatic a = true ↔ ∃ v, s.peek a = some v := by
  unfold State.isStatic State.peek
  cases s.place a <;> simp [placeStatic, placePeek]

theorem peek_zero (s : State) : s.peek 0#64 = some s.regZero := by rw [State.peek, place_zero, placePeek]

/-! ### Loads and pushes of the static regions -/

theorem load_static {s : State} {a v : Word} (h : s.peek a = some v) : s.load a = .ok v s := by
  unfold State.peek at h
  unfold State.load
  cases hp : s.place a <;> simp_all [placePeek]

theorem push_static {s : State} {a : Word} (h : s.isStatic a = true) (v : Word) : s.push a v = .ok () (s.poke a v) := by
  unfold State.isStatic at h
  unfold State.push State.poke
  cases hp : s.place a <;> simp_all [placeStatic, placePoke]

theorem poke_cfg (s : State) (a v : Word) : (s.poke a v).cfg = s.cfg := by
  unfold State.poke; cases s.place a <;> rfl

theorem poke_devices (s : State) (a v : Word) : (s.poke a v).devices = s.devices := by
  unfold State.poke; cases s.place a <;> rfl

theorem poke_script (s : State) (a v : Word) : (s.poke a v).script = s.script := by
  unfold State.poke; cases s.place a <;> rfl

theorem poke_draws (s : State) (a v : Word) : (s.poke a v).draws = s.draws := by
  unfold State.poke; cases s.place a <;> rfl

theorem poke_events (s : State) (a v : Word) : (s.poke a v).events = s.events := by
  unfold State.poke; cases s.place a <;> rfl

theorem poke_result (s : State) (a v : Word) : (s.poke a v).result = s.result := by
  unfold State.poke; cases s.place a <;> rfl

theorem poke_regZero (s : State) (a v : Word) : (s.poke a v).regZero = if a = 0 then v else s.regZero := by
  have hiff := place_register_iff s a
  unfold State.poke
  cases hp : s.place a <;> simp_all [placePoke]

/-- Reading after writing in one place, for a state that differs only by the write. -/
theorem placePeek_placePoke (s : State) (v : Word) {p : Place} (h : placeStatic p = true) (q : Place) :
    placePeek (placePoke s v p) q = if q = p then some (placeLanded v p) else placePeek s q := by
  cases p <;> cases q <;> simp_all [placeStatic, placePeek, placePoke, placeLanded, dataWord_setData, cacheGet_cacheSet] <;>
    first | rfl | (split <;> rfl)

/-- Different addresses of the static regions are different places. -/
theorem place_static_inj {s : State} {a b : Word} (h : s.isStatic a = true) (he : s.place b = s.place a) : b = a := by
  rcases (isStatic_iff s a).mp h with ha | ⟨i, ha⟩ | ⟨i, ha⟩
  · rw [(place_register_iff s a).mp ha, (place_register_iff s b).mp (he.trans ha)]
  · have h1 := place_data ha
    have h2 := place_data (he.trans ha)
    exact BitVec.eq_of_toNat_eq (by omega)
  · have h1 := place_instruction ha
    have h2 := place_instruction (he.trans ha)
    exact BitVec.eq_of_toNat_eq (by omega)

/-- Reading after writing in the static regions (R43 to R46): the address written reads what landed there, every other
address what it read before. -/
theorem peek_poke {s : State} {a : Word} (h : s.isStatic a = true) (b v : Word) :
    (s.poke a v).peek b = if b = a then some (s.landed a v) else s.peek b := by
  rw [State.peek, place_congr (poke_cfg ..) (poke_devices ..), State.poke, placePeek_placePoke s v h]
  by_cases hb : b = a
  · rw [if_pos hb, if_pos (by rw [hb])]
    rfl
  · rw [if_neg hb, if_neg fun he => hb (place_static_inj h he)]
    rfl

/-- Only address 0 sees `reg_zero`: a state that differs in nothing else a place shows reads alike everywhere else. -/
theorem peek_congr {s t : State} (hc : t.cfg = s.cfg) (hv : t.devices = s.devices) (hd : t.data = s.data)
    (hk : t.cells = s.cells) {b : Word} (h : b ≠ 0) : t.peek b = s.peek b := by
  have hb : s.place b ≠ .register := fun hp => h ((place_register_iff s b).mp hp)
  unfold State.peek
  rw [place_congr hc hv b]
  cases hp : s.place b <;>
    simp_all [placePeek, State.dataWord, State.cacheGet, State.cell]

theorem peek_advance (s : State) {b : Word} (h : b ≠ 0) : s.advance.peek b = s.peek b :=
  peek_congr (s := s) (t := s.advance) rfl rfl rfl rfl h

/-! ### What a load or a push can do -/

/-- What a bus load can answer: the Word of a static region, with the state untouched; a device's Word or failure, with one
event recorded and one answer used; `AddressNotPopulated`; or the boundary fault. -/
theorem load_cases (s : State) (a : Word) :
    (∃ v, s.peek a = some v ∧ s.load a = .ok v s) ∨
    (∃ d v, s.place a = .device d ∧ s.nextAnswer d (.load a) = .ok v ∧
      s.load a = .ok v (s.recordCall d (.load a) (.ok v))) ∨
    (∃ d x, s.place a = .device d ∧ s.nextAnswer d (.load a) = .failed x ∧
      s.load a = .err (.deviceError x) (s.recordCall d (.load a) (.failed x))) ∨
    (s.place a = .unpopulated ∧ s.load a = .err (.addressNotPopulated a) s) ∨
    (s.place a = .boundary ∧ s.load a = .boundary) := by
  unfold State.peek State.load
  cases hp : s.place a with
  | device d => cases hn : s.nextAnswer d (.load a) <;> simp [hn, placePeek]
  | _ => simp [placePeek]

/-- What a bus push can answer, in the same five cases. -/
theorem push_cases (s : State) (a v : Word) :
    (s.isStatic a = true ∧ s.push a v = .ok () (s.poke a v)) ∨
    (∃ d x, s.place a = .device d ∧ s.nextAnswer d (.push a v) = .ok x ∧
      s.push a v = .ok () (s.recordCall d (.push a v) (.ok x))) ∨
    (∃ d x, s.place a = .device d ∧ s.nextAnswer d (.push a v) = .failed x ∧
      s.push a v = .err (.deviceError x) (s.recordCall d (.push a v) (.failed x))) ∨
    (s.place a = .unpopulated ∧ s.push a v = .err (.addressNotPopulated a) s) ∨
    (s.place a = .boundary ∧ s.push a v = .boundary) := by
  unfold State.isStatic State.push State.poke
  cases hp : s.place a with
  | device d => cases hn : s.nextAnswer d (.push a v) <;> simp [hn, placeStatic]
  | _ => simp [placeStatic, placePoke]

/-- A device answers with a Word of the profile. -/
theorem nextAnswer_fits {s : State} {d : Nat} {call : DeviceCall} {v : Word} (h : s.nextAnswer d call = .ok v) :
    fits s.cfg.width v = true := by
  unfold State.nextAnswer at h
  split at h
  · next a _ _ => cases a <;> simp_all [wrapAnswer]; exact h ▸ fits_wrap ..
  · revert h
    cases Config.deviceAnswer s.draws s.events d call <;> simp [wrapAnswer]
    rintro rfl
    exact fits_wrap ..

/-! ### The diagnostic write -/

/-- A state reached by device calls alone: `reg_zero`, the arrays and what construction fixed are the same, and the events
only grow. -/
structure DeviceCallsOnly (s t : State) : Prop where
  cfg : t.cfg = s.cfg
  regZero : t.regZero = s.regZero
  data : t.data = s.data
  cells : t.cells = s.cells
  devices : t.devices = s.devices
  result : t.result = s.result
  events : s.events <+: t.events

theorem DeviceCallsOnly.refl (s : State) : DeviceCallsOnly s s := ⟨rfl, rfl, rfl, rfl, rfl, rfl, List.prefix_refl _⟩

theorem DeviceCallsOnly.trans {s t u : State} (h : DeviceCallsOnly s t) (k : DeviceCallsOnly t u) :
    DeviceCallsOnly s u :=
  ⟨k.cfg.trans h.cfg, k.regZero.trans h.regZero, k.data.trans h.data, k.cells.trans h.cells,
   k.devices.trans h.devices, k.result.trans h.result, h.events.trans k.events⟩

theorem recordCall_only (s : State) (d : Nat) (call : DeviceCall) (ans : DeviceAnswer) :
    DeviceCallsOnly s (s.recordCall d call ans) := ⟨rfl, rfl, rfl, rfl, rfl, rfl, ⟨_, rfl⟩⟩

theorem recordFailures_only (d : Nat) (call : DeviceCall) (xs : List Word) (s : State) :
    DeviceCallsOnly s (s.recordFailures d call xs) := by
  induction xs generalizing s with
  | nil => exact .refl s
  | cons x xs ih => exact (recordCall_only ..).trans (ih _)

theorem retryPush_only (d : Nat) (call : DeviceCall) (script : List DeviceAnswer) (s t : State)
    (h : retryPush d call script s = .done t) : DeviceCallsOnly s t := by
  induction script generalizing s with
  | nil =>
    unfold retryPush at h
    split at h
    · cases h
      exact (recordFailures_only ..).trans (recordCall_only ..)
    · cases h
  | cons a rest ih =>
    cases a with
    | ok x =>
      cases h
      exact recordCall_only ..
    | failed x => exact (recordCall_only ..).trans (ih _ h)

theorem retryPush_ne_boundary (d : Nat) (call : DeviceCall) (script : List DeviceAnswer) (s : State) :
    retryPush d call script s ≠ .boundary := by
  induction script generalizing s with
  | nil => unfold retryPush; split <;> simp
  | cons a rest ih =>
    cases a with
    | ok x => simp [retryPush]
    | failed x => exact ih _

/-- How the diagnostic write ends: done in a static region, done after device calls, at the boundary, or never. -/
theorem diagnosticWrite_cases (s : State) :
    (s.isStatic s.cfg.diagAddr = true ∧ s.diagnosticWrite = .done (s.poke s.cfg.diagAddr s.regZero)) ∨
    (∃ d t, s.place s.cfg.diagAddr = .device d ∧ s.diagnosticWrite = .done t ∧ DeviceCallsOnly s t) ∨
    (s.place s.cfg.diagAddr = .boundary ∧ s.diagnosticWrite = .boundary) ∨
    ((s.place s.cfg.diagAddr = .unpopulated ∨ ∃ d, s.place s.cfg.diagAddr = .device d) ∧ s.diagnosticWrite = .hang) := by
  unfold State.isStatic State.diagnosticWrite
  cases hp : s.place s.cfg.diagAddr with
  | device d =>
    cases hr : retryPush d (.push s.cfg.diagAddr s.regZero) s.script s with
    | done t => exact .inr (.inl ⟨d, t, rfl, hr, retryPush_only _ _ _ _ _ hr⟩)
    | boundary => exact absurd hr (retryPush_ne_boundary _ _ _ _)
    | hang => exact .inr (.inr (.inr ⟨.inr ⟨d, rfl⟩, hr⟩))
  | _ => simp [placeStatic]

end Sys2Proof.Machine
end

