-- ==== Sys2Proof/Laws/Decode.lean ====
section
/-! SUPPORT. The fields of an encoded opcode byte and the byte order, read back. -/

namespace Sys2Proof

theorem classOf_opcodeByte (k : OpClass) (f : Flags) (sp : Speed) : classOf (opcodeByte k f sp) = k := by
  obtain ⟨ie, nh, nd⟩ := f
  cases k <;> cases sp <;> revert ie nh nd <;> decide

theorem flagsOf_opcodeByte (k : OpClass) (f : Flags) (sp : Speed) : flagsOf (opcodeByte k f sp) = f := by
  obtain ⟨ie, nh, nd⟩ := f
  cases k <;> cases sp <;> revert ie nh nd <;> decide

theorem speedOf_opcodeByte (k : OpClass) (f : Flags) (sp : Speed) : speedOf (opcodeByte k f sp) = sp := by
  obtain ⟨ie, nh, nd⟩ := f
  cases k <;> cases sp <;> revert ie nh nd <;> decide

/-- The fields of an opcode byte determine it (R72). -/
theorem opcodeByte_fields (ob : Byte) : opcodeByte (classOf ob) (flagsOf ob) (speedOf ob) = ob := by
  revert ob
  decide

@[simp] theorem opClass_ofClass (k : OpClass) (f : Flags) (sp : Speed) (a1 a2 : Word) :
    (Instr.ofClass k f sp a1 a2).opClass = k := by cases k <;> rfl

@[simp] theorem writtenOperand_toNat (w : Width) (n : Nat) : (writtenOperand w n).toNat = n % 2 ^ w.bits := by
  cases w <;> simp only [writtenOperand, Width.bits, BitVec.toNat_ofNat] <;> omega

/-- An instruction's cell is that of the written instruction with its class and fields, where its operands are Words of the
profile: each of `encode` and `assemble` is R82's. -/
theorem assemble_ofClass (w : Width) (k : OpClass) (f : Flags) (sp : Speed) (a1 a2 : Word) (hk : k ≠ .noOp)
    (h1 : fits w a1 = true) (h2 : fits w a2 = true) :
    assemble w (.instruction k f (some sp) a1.toNat a2.toNat) = encode (Instr.ofClass k f sp a1 a2) := by
  have e : ∀ a : Word, fits w a = true → writtenOperand w a.toNat = a := fun a h =>
    BitVec.eq_of_toNat_eq (by rw [writtenOperand_toNat]; exact Nat.mod_eq_of_lt (by simpa [fits] using h))
  cases k <;> first | exact absurd rfl hk | simp [assemble, Instr.ofClass, encode, e a1 h1, e a2 h2]

@[simp] theorem toBytes_length (n v : Nat) : (toBytes n v).length = n := by
  induction n with
  | zero => rfl
  | succ n ih => simp [toBytes, ih]

theorem bigEndian_foldl (bytes : List Byte) (acc : Nat) :
    bytes.foldl (fun a b => a * 256 + b.toNat) acc = acc * 256 ^ bytes.length + bigEndian bytes := by
  unfold bigEndian
  induction bytes generalizing acc with
  | nil => simp
  | cons b bs ih =>
    simp only [List.foldl_cons, List.length_cons]
    rw [ih, ih (0 * 256 + b.toNat)]
    ring

theorem bigEndian_cons (b : Byte) (bs : List Byte) : bigEndian (b :: bs) = b.toNat * 256 ^ bs.length + bigEndian bs := by
  have h := bigEndian_foldl bs (0 * 256 + b.toNat)
  simpa [bigEndian] using h

theorem bigEndian_lt (bs : List Byte) : bigEndian bs < 256 ^ bs.length := by
  induction bs with
  | nil => simp [bigEndian]
  | cons b bs ih =>
    rw [bigEndian_cons, List.length_cons, pow_succ]
    have hb : b.toNat < 2 ^ 8 := b.isLt
    have : b.toNat * 256 ^ bs.length ≤ 255 * 256 ^ bs.length := Nat.mul_le_mul_right _ (by omega)
    omega

/-- Reading back the low `n` bytes of a value gives it modulo `256^n`. -/
theorem bigEndian_toBytes (n v : Nat) : bigEndian (toBytes n v) = v % 256 ^ n := by
  induction n with
  | zero => simp [toBytes, bigEndian, Nat.mod_one]
  | succ n ih =>
    have h : (2 : Nat) ^ 8 = 256 := rfl
    rw [toBytes, bigEndian_cons, ih, toBytes_length, BitVec.toNat_ofNat, h, Nat.pow_succ, Nat.mod_mul (a := 256 ^ n)]
    ring

end Sys2Proof
end

