-- ==== Sys2Proof/Laws/Exec.lean ====
section
/-! SUPPORT. What taking an error can do, and how a property kept by the shared operations is kept by every instruction and by
the tick. -/

namespace Sys2Proof.Machine

/-- What taking an error can do (R156): absorb it, escalate it, absorb it after a diagnostic write, or end the machine in that
write. -/
theorem takeError_cases (f : Flags) (e : CpuError) (s : State) :
    (errorPolicy f = .absorb ∧ takeError f e s = .next s.advance) ∨
    (errorPolicy f = .escalate ∧ takeError f e s = .next (s.escalate e)) ∨
    (errorPolicy f = .record ∧ ∃ t, s.diagnosticWrite = .done t ∧ takeError f e s = .next t.advance) ∨
    (errorPolicy f = .record ∧ s.diagnosticWrite = .boundary ∧ takeError f e s = .fault .boundaryAddress) ∨
    (errorPolicy f = .record ∧ s.diagnosticWrite = .hang ∧ takeError f e s = .fault .diagnosticLoop) := by
  unfold takeError
  cases errorPolicy f with
  | record => cases s.diagnosticWrite <;> simp
  | _ => simp

/-- A property of states, and one of Words, that the shared operations keep: each device load gives a Word of the kind, and each
push of a Word of the kind keeps the property. -/
structure Kept (P : State → Prop) (Q : Word → Prop) : Prop where
  loadOk : ∀ {s t a v}, P s → s.load a = .ok v t → P t ∧ Q v
  loadErr : ∀ {s t a e}, P s → s.load a = .err e t → P t
  pushOk : ∀ {s t a v}, P s → Q v → s.push a v = .ok () t → P t
  pushErr : ∀ {s t a v e}, P s → s.push a v = .err e t → P t
  diagnostic : ∀ {s t}, P s → s.diagnosticWrite = .done t → P t
  advance : ∀ {s}, P s → P s.advance
  escalate : ∀ {s e}, P s → P (s.escalate e)
  adjust : ∀ {s v}, P s → P { s with regZero := addW s.cfg.width s.regZero v }
  arithmetic : ∀ {s} (a b), P s → Q (addW s.cfg.width a b) ∧ Q (subW s.cfg.width a b) ∧ Q (mulW s.cfg.width a b)
  quotient : ∀ {a} (b), Q a → Q (divW a b)

namespace Kept

variable {P : State → Prop} {Q : Word → Prop} {s t : State} {f : Flags} {a a1 a2 v : Word}

theorem takeError (k : Kept P Q) {e : CpuError} (hs : P s) (h : Machine.takeError f e s = .next t) : P t := by
  rcases takeError_cases f e s with ⟨_, he⟩ | ⟨_, he⟩ | ⟨_, u, hu, he⟩ | ⟨_, _, he⟩ | ⟨_, _, he⟩ <;> rw [he] at h
  · cases h; exact k.advance hs
  · cases h; exact k.escalate hs
  · cases h; exact k.advance (k.diagnostic hs hu)
  · cases h
  · cases h

theorem load (k : Kept P Q) {next : Word → State → Host.Outcome State Fault Refusal} (hs : P s)
    (hnext : ∀ v u, P u → Q v → next v u = .next t → P t) (h : tryBus f (s.load a) next = .next t) : P t := by
  unfold tryBus at h
  split at h
  · next v u hl => exact hnext v u (k.loadOk hs hl).1 (k.loadOk hs hl).2 h
  · next e u hl => exact k.takeError (k.loadErr hs hl) h
  · cases h

theorem pushAndAdvance (k : Kept P Q) (hs : P s) (hv : Q v) (h : Machine.pushAndAdvance f a v s = .next t) : P t := by
  unfold Machine.pushAndAdvance tryBus at h
  split at h
  · next u hp => cases h; exact k.advance (k.pushOk hs hv hp)
  · next e u hp => exact k.takeError (k.pushErr hs hp) h
  · cases h

theorem loadBoth (k : Kept P Q) {next : Word → Word → State → Host.Outcome State Fault Refusal} (hs : P s)
    (hnext : ∀ v1 v2 u, P u → Q v1 → next v1 v2 u = .next t → P t)
    (h : Machine.loadBoth f a1 a2 s next = .next t) : P t :=
  k.load hs (fun v1 _ hu hv1 h => k.load hu (fun v2 w hw _ h => hnext v1 v2 w hw hv1 h) h) h

/-- Every instruction keeps the property; LOAD asks that its immediate be of the kind. -/
theorem exec (k : Kept P Q) {i : Instr} (hs : P s) (himm : ∀ f sp a1 a2, i = .load f sp a1 a2 → Q a2)
    (h : Machine.exec i s = .next t) : P t := by
  cases i with
  | nop => cases h; exact k.advance hs
  | load f sp a1 a2 => exact k.pushAndAdvance hs (himm f sp a1 a2 rfl) h
  | copy f sp a1 a2 => exact k.load hs (fun v u hu hv h => k.pushAndAdvance hu hv h) h
  | cmp f sp a1 a2 =>
    refine k.loadBoth hs (fun v1 v2 u hu _ h => ?_) h
    cases h
    exact k.advance (k.adjust hu)
  | add f sp a1 a2 => exact k.loadBoth hs (fun v1 v2 u hu _ h => k.pushAndAdvance hu (k.arithmetic _ _ hu).1 h) h
  | sub f sp a1 a2 => exact k.loadBoth hs (fun v1 v2 u hu _ h => k.pushAndAdvance hu (k.arithmetic _ _ hu).2.1 h) h
  | mul f sp a1 a2 => exact k.loadBoth hs (fun v1 v2 u hu _ h => k.pushAndAdvance hu (k.arithmetic _ _ hu).2.2 h) h
  | div f sp a1 a2 =>
    refine k.loadBoth hs (fun v1 v2 u hu hv1 h => ?_) h
    split at h
    · cases h
    · exact k.pushAndAdvance hu (k.quotient v2 hv1) h

theorem fetchOk (k : Kept P Q) {words : Fetched} (hs : P s) (h : s.fetch = .ok words t) :
    P t ∧ Q words.w0 ∧ Q words.w1 ∧ Q words.w2 := by
  unfold State.fetch at h
  split at h
  · cases h
  · cases h
  · next w0 s1 h0 =>
    split at h
    · cases h
    · cases h
    · next w1 s2 h1 =>
      split at h
      · cases h
      · cases h
      · next w2 s3 h2 =>
        cases h
        have k0 := k.loadOk hs h0
        have k1 := k.loadOk k0.1 h1
        have k2 := k.loadOk k1.1 h2
        exact ⟨k2.1, k0.2, k1.2, k2.2⟩

theorem fetchErr (k : Kept P Q) {e : CpuError} (hs : P s) (h : s.fetch = .err e t) : P t := by
  unfold State.fetch at h
  split at h
  · next h0 => cases h; exact k.loadErr hs h0
  · cases h
  · next w0 s1 h0 =>
    split at h
    · next h1 => cases h; exact k.loadErr (k.loadOk hs h0).1 h1
    · cases h
    · next w1 s2 h1 =>
      split at h
      · next h2 => cases h; exact k.loadErr (k.loadOk (k.loadOk hs h0).1 h1).1 h2
      · cases h
      · cases h

/-- The immediate of a decoded LOAD is the third word fetched. -/
theorem decode_load_immediate {w0 w1 w2 a1 a2 : Word} {g : Flags} {sp : Speed} (h : decode w0 w1 w2 = .load g sp a1 a2) :
    a2 = w2 := by
  unfold decode at h
  cases hc : classOf (narrow8 w0) <;> simp_all [Instr.ofClass]

/-- The tick keeps the property. -/
theorem step (k : Kept P Q) (hs : P s) (h : Machine.step s = .next t) : P t := by
  unfold Machine.step at h
  split at h
  · next words u hf =>
    obtain ⟨hu, _, _, h2⟩ := k.fetchOk hs hf
    exact k.exec hu (fun g sp a1 a2 hi => decode_load_immediate hi ▸ h2) h
  · next e u hf => cases h; exact k.escalate (k.fetchErr hs hf)
  · cases h

end Kept

end Sys2Proof.Machine
end

