-- ==== Sys2Proof/Laws/PerInstr.lean ====
section
/-! SUPPORT. Statements about every instruction as syntax, one lemma per constructor. -/

namespace Sys2Proof.Laws.OpcodeClass

/-- The encoded opcode byte carries the instruction's class in `ob[7:5]` (R72, R73). -/
def Statement (i : Instr) : Prop := classOf (encode i).op = i.opClass

theorem nop : Statement .nop := classOf_opcodeByte ..
theorem load (f : Flags) (sp : Speed) (a1 a2 : Word) : Statement (.load f sp a1 a2) := classOf_opcodeByte ..
theorem copy (f : Flags) (sp : Speed) (a1 a2 : Word) : Statement (.copy f sp a1 a2) := classOf_opcodeByte ..
theorem cmp (f : Flags) (sp : Speed) (a1 a2 : Word) : Statement (.cmp f sp a1 a2) := classOf_opcodeByte ..
theorem add (f : Flags) (sp : Speed) (a1 a2 : Word) : Statement (.add f sp a1 a2) := classOf_opcodeByte ..
theorem sub (f : Flags) (sp : Speed) (a1 a2 : Word) : Statement (.sub f sp a1 a2) := classOf_opcodeByte ..
theorem mul (f : Flags) (sp : Speed) (a1 a2 : Word) : Statement (.mul f sp a1 a2) := classOf_opcodeByte ..
theorem div (f : Flags) (sp : Speed) (a1 a2 : Word) : Statement (.div f sp a1 a2) := classOf_opcodeByte ..

end Sys2Proof.Laws.OpcodeClass
end

