-- ==== Sys2Proof/Tests/Slice0.lean ====
section
/-! SUPPORT. Tests. Expected results are the vectors of 95_test_vectors.md, named beside each, or are worked out by hand from the
rule named. After them, one witness or more for the hypotheses of each obligation that has hypotheses. -/

namespace Sys2Proof.Tests

open Sys2Proof Sys2Proof.Machine

/-! ### Helpers -/

/-- EX16 with the fetch at `p` and these data words and cells. -/
def at16 (p : Word) (data : List (Nat × Word)) (cells : List (Nat × CellFields)) : State :=
  { State.reset with regZero := p, data := data, cells := cells }

/-- A W16 cell from its five image bytes. -/
def cell16 (bytes : List Byte) : CellFields := parseCell .w16 bytes

/-- One instruction in cell 0 of EX16, with these data words and the fetch at its address. -/
def one (bytes : List Byte) (data : List (Nat × Word)) : State := at16 1025 data [(0, cell16 bytes)]

/-- The same with a device and the answers it gives. -/
def withDevice (s : State) (lo hi : Word) (script : List DeviceAnswer) : State :=
  { s with devices := [⟨lo, hi⟩], script := script }

/-- The same with another diagnostic address. -/
def withDiag (s : State) (a : Word) : State := { s with cfg := { s.cfg with diagAddr := a } }

/-- What a tick returned, `reg_zero` after it, and the Words these addresses then hold. -/
def seen (o : Host.Outcome State Fault Refusal) (addrs : List Word) : Option (TickResult × Word × List (Option Word)) :=
  match o with
  | .next s => some (s.result, s.regZero, addrs.map s.peek)
  | .fault _ => none
  | .refused _ => none

/-- The fault a tick ended in. -/
def faulted (o : Host.Outcome State Fault Refusal) : Option Fault :=
  match o with
  | .next _ => none
  | .fault f => some f
  | .refused _ => none

/-- The device calls a tick has recorded. -/
def calls (o : Host.Outcome State Fault Refusal) : List DeviceEvent :=
  match o with
  | .next s => s.events
  | .fault _ => []
  | .refused _ => []

/-- The smallest machine of a profile: one data word and one cell. -/
def small (w : Width) : Config := ⟨w, 1, 3, 1, 2⟩

/-! ### Well-formedness: a term that is accepted, and one refused for each check -/

theorem test_wf_ex16 : Config.ex16.wf = true := by decide
theorem test_wf_no_data : Config.wf { Config.ex16 with dataSize := 0 } = false := by decide
theorem test_wf_no_instructions : Config.wf { Config.ex16 with instructionSize := 0 } = false := by decide
/-- B4. -/
theorem test_wf_not_a_multiple_of_3 : Config.wf { Config.ex16 with instructionSize := 3071 } = false := by decide
/-- `A_TOP` may be `2^W - 1` and no more. -/
theorem test_wf_regions_bound :
    Config.wf { Config.ex16 with dataSize := 62462 } = true ∧ Config.wf { Config.ex16 with dataSize := 62463 } = false := by
  decide
theorem test_wf_wide_diagnostic_address : Config.wf { Config.ex16 with diagAddr := 0x10000 } = false := by decide
theorem test_wf_wide_reset_address : Config.wf { Config.ex16 with resetPc := 0x10000 } = false := by decide
theorem test_wf_device :
    Device.wf .w16 ⟨0x5000, 0x4000⟩ = true ∧ Device.wf .w16 ⟨0x10000, 1⟩ = false ∧ Device.wf .w16 ⟨1, 0x10000⟩ = false := by
  decide
theorem test_wf_operand_one : ∀ i ∈ [Instr.load .none .fast 0x10000 0, .copy .none .fast 0x10000 0, .cmp .none .fast 0x10000 0,
    .add .none .fast 0x10000 0, .sub .none .fast 0x10000 0, .mul .none .fast 0x10000 0, .div .none .fast 0x10000 0],
    i.wf .w16 = false ∧ i.wf .w32 = true := by decide
theorem test_wf_operand_two : ∀ i ∈ [Instr.load .none .fast 0 0x10000, .copy .none .fast 0 0x10000, .cmp .none .fast 0 0x10000,
    .add .none .fast 0 0x10000, .sub .none .fast 0 0x10000, .mul .none .fast 0 0x10000, .div .none .fast 0 0x10000],
    i.wf .w16 = false ∧ i.wf .w32 = true := by decide
/-- B1 and B4: too short an image, an ill-formed configuration, a device of another profile; B2's sizes are accepted. -/
theorem test_construction_refused :
    construct (small .w16) [0, 0, 0, 0] [] [] 0 = none ∧
    construct { small .w16 with instructionSize := 4 } [0, 0, 0, 0, 0] [] [] 0 = none ∧
    construct (small .w16) [0, 0, 0, 0, 0] [⟨0, 0x10000⟩] [] 0 = none ∧
    (construct (small .w16) [0, 0, 0, 0, 0] [] [] 0).isSome = true := by decide

/-! ### Decoding words written out bit by bit -/

/-- `000 11111`: bits 4 to 0 ignored (DC2). -/
theorem test_decode_nop : decode 0b00011111 5 6 = .nop := by decide
/-- `001 1 1 1 11` (DC4). -/
theorem test_decode_load : decode 0b00111111 5 6 = .load ⟨true, true, true⟩ .halt 5 6 := by decide
/-- `010 1 1 1 00` (DC6), and W32 word 0x12345640 (DC17). -/
theorem test_decode_copy :
    decode 0b01011100 5 6 = .copy ⟨true, true, true⟩ .fast 5 6 ∧ decode 0x12345640 5 6 = .copy .none .fast 5 6 := by decide
/-- `011 1 0 0 10` (DC8), `011 0 0 0 01` (DC7). -/
theorem test_decode_cmp :
    decode 0b01110010 5 6 = .cmp ⟨true, false, false⟩ .slow 5 6 ∧ decode 0b01100001 5 6 = .cmp .none .medium 5 6 := by decide
/-- `100 0 1 0 00` (DC9), `100 1 0 1 00` (DC10). -/
theorem test_decode_add :
    decode 0b10001000 5 6 = .add ⟨false, true, false⟩ .fast 5 6 ∧ decode 0b10010100 5 6 = .add ⟨true, false, true⟩ .fast 5 6 := by
  decide
/-- `101 0 1 1 00` (DC11). -/
theorem test_decode_sub : decode 0b10101100 5 6 = .sub ⟨false, true, true⟩ .fast 5 6 := by decide
/-- `110 1 1 0 11` (DC12). -/
theorem test_decode_mul : decode 0b11011011 5 6 = .mul ⟨true, true, false⟩ .halt 5 6 := by decide
/-- `111 1 1 1 11` (DC13), and 0xFFE0 narrowed (DC15). -/
theorem test_decode_div :
    decode 0b11111111 5 6 = .div ⟨true, true, true⟩ .halt 5 6 ∧ decode 0xFFE0 5 6 = .div .none .fast 5 6 := by decide
/-- The image bytes of `ADD.ie 10, 11` and its cells in the two wider profiles (R64, B5, B6). -/
theorem test_decode_bytes_by_profile :
    decodeBytes .w16 [0x90, 0x00, 0x0A, 0x00, 0x0B] = .ok (.add ⟨true, false, false⟩ .fast 10 11, []) ∧
    decodeBytes .w32 [0x80, 0, 0, 0, 0x0A, 0x12, 0x34, 0x56, 0x78] = .ok (.add .none .fast 10 0x12345678, []) ∧
    decodeBytes .w64 [0xE0, 0, 0, 0, 0, 0, 0, 0, 1, 0xFF, 0xFF, 0xFF, 0xFF, 0xFF, 0xFF, 0xFF, 0xFF, 7] =
      .ok (.div .none .fast 1 0xFFFFFFFFFFFFFFFF, [7]) := ⟨rfl, rfl, rfl⟩
theorem test_decode_bytes_short : decodeBytes .w16 [0x90, 0x00, 0x0A, 0x00] = .error .shortCell := rfl
/-- `CMP.nh.nd.slow 1, 2` is `6E 00 01 00 02` (R82). -/
theorem test_encode_cmp : encodeBytes .w16 (.cmp ⟨false, true, true⟩ .slow 1 2) = [0x6E, 0x00, 0x01, 0x00, 0x02] := by decide
/-- Written instructions and their cells: P3's `NOP 31, 30`, R82's `ADD.ie 10, 11`, V1's raw cell, and a W32 operand reduced. -/
theorem test_assemble :
    assembleBytes .w16 (.instruction .noOp .none none 31 30) = [0x00, 0x00, 0x1F, 0x00, 0x1E] ∧
    assembleBytes .w16 (.instruction .add ⟨true, false, false⟩ none 10 11) = [0x90, 0x00, 0x0A, 0x00, 0x0B] ∧
    assembleBytes .w16 (.rawCell 0x1F 5000 5000) = [0x1F, 0x13, 0x88, 0x13, 0x88] ∧
    assembleBytes .w16 (.bareNop .none none) = [0, 0, 0, 0, 0] ∧
    (assemble .w32 (.instruction .load .none (some .halt) 0x100000001 7)) = ⟨0x23, 1, 7⟩ := by decide
theorem test_written_text :
    (Written.instruction .add ⟨true, false, false⟩ none 10 11).text = "ADD.ie 10, 11" ∧
    (Written.instruction .compare ⟨false, true, true⟩ (some .slow) 1 2).text = "CMP.nh.nd.slow 1, 2" := by decide
/-- A table word of 8 bits, whose operand words are zeros, and one of 40 bits. -/
theorem test_decode_table_word :
    decodeTableWord 8 0x35 = some (.load ⟨true, false, true⟩ .medium 0 0) ∧
    decodeTableWord 40 0x0B000A0090 = some (.add ⟨true, false, false⟩ .fast 10 11) := by decide
/-- The word placed after reset is the next instruction run: `LOAD 0, 0`, and an ADD of address 10 to address 10's neighbour. -/
theorem test_with_fetch_word :
    seen (step (State.reset.withFetchWord 8 0x20)) [] = some (.ok, 3, []) ∧
    seen (step ((at16 1025 [(9, 5), (10, 3)] []).withFetchWord 40 0x0B000A0080)) [10, 11] =
      some (.ok, 1028, [some 8, some 3]) := by decide
/-- Where `reg_zero` is not the address of a cell the placing moves it to cell 0. -/
theorem test_with_fetch_word_moves : ((at16 7 [] []).withFetchWord 8 0xE0).regZero = 1025 := by decide

/-! ### One tick of each instruction -/

/-- T1 and V1: a NoOp makes no call, whatever its operands and low bits. -/
theorem test_nop : step (one [0x1F, 0x13, 0x88, 0x13, 0x88] []) =
    .next { one [0x1F, 0x13, 0x88, 0x13, 0x88] [] with regZero := 1028, result := .ok } := rfl
/-- V3 and V5: a full Word to data, a byte to field 0. -/
theorem test_load_stores :
    seen (step (one [0x20, 0x04, 0x00, 0xFF, 0xFF] [])) [1024] = some (.ok, 1028, [some 0xFFFF]) ∧
    seen (step (one [0x20, 0x04, 0x04, 0x01, 0xE0] [])) [1028] = some (.ok, 1028, [some 0xE0]) := by decide
/-- V4, V6 and T7: a jump, its own operand word, the wrap of the advance. -/
theorem test_load_control :
    seen (step (one [0x20, 0x00, 0x00, 0x07, 0xD0] [])) [] = some (.ok, 2003, []) ∧
    seen (step (one [0x20, 0x04, 0x02, 0x00, 0x07] [])) [1026] = some (.ok, 1028, [some 7]) ∧
    seen (step (one [0x20, 0x00, 0x00, 0xFF, 0xFD] [])) [] = some (.ok, 0, []) := by decide
/-- V9 and V11. -/
theorem test_copy :
    seen (step (one [0x40, 0x00, 0x0A, 0x00, 0x0B] [(9, 5)])) [10, 11] = some (.ok, 1028, [some 5, some 5]) ∧
    seen (step (one [0x40, 0x00, 0x0C, 0x00, 0x00] [(11, 2000)])) [12] = some (.ok, 2003, [some 2000]) := by decide
/-- V10 and V13: `reg_zero` as the source is the instruction's own address; field 0 keeps the low byte. -/
theorem test_copy_special :
    seen (step (at16 1031 [] [(2, cell16 [0x40, 0x00, 0x00, 0x00, 0x0C])])) [12] = some (.ok, 1034, [some 1031]) ∧
    seen (step (one [0x40, 0x00, 0x0E, 0x04, 0x07] [(13, 0x01A5)])) [1031] = some (.ok, 1028, [some 0xA5]) := by decide
/-- CP1, CP2, CP3 and CP4, with `p = 1043`. -/
theorem test_cmp :
    seen (step (at16 1043 [(9, 5), (10, 5)] [(6, cell16 [0x60, 0, 10, 0, 11])])) [] = some (.ok, 1047, []) ∧
    seen (step (at16 1043 [(9, 6), (10, 5)] [(6, cell16 [0x60, 0, 10, 0, 11])])) [] = some (.ok, 1048, []) ∧
    seen (step (at16 1043 [(9, 5), (10, 6)] [(6, cell16 [0x60, 0, 10, 0, 11])])) [] = some (.ok, 1046, []) ∧
    seen (step (at16 1043 [(9, 0xFFFF), (10, 1)] [(6, cell16 [0x60, 0, 10, 0, 11])])) [] = some (.ok, 1048, []) := by decide
/-- CP7 and CP10: `reg_zero` as an operand, and an absorbed second load. -/
theorem test_cmp_special :
    seen (step (at16 1043 [(14, 1043)] [(6, cell16 [0x60, 0, 0, 0, 15])])) [] = some (.ok, 1047, []) ∧
    seen (step (at16 1043 [] [(6, cell16 [0x70, 0, 10, 0x13, 0x88])])) [] = some (.ok, 1046, []) := by decide
/-- A30 and A36: doubling wraps; the result at field 0 keeps its low byte. -/
theorem test_add :
    seen (step (one [0x80, 0x00, 0x0A, 0x00, 0x0A] [(9, 0x9000)])) [10] = some (.ok, 1028, [some 0x2000]) ∧
    seen (step (at16 1028 [(15, 0xF0)] [(0, ⟨0x20, 0, 0⟩), (1, cell16 [0x80, 0x04, 0x01, 0x00, 0x10])])) [1025] =
      some (.ok, 1031, [some 0x10]) := by decide
/-- A5 and A35: `3 - 64`, and a jump back. -/
theorem test_sub :
    seen (step (one [0xA0, 0x00, 0x0B, 0x00, 0x0A] [(9, 64), (10, 3)])) [11, 10] =
      some (.ok, 1028, [some 0xFFC3, some 64]) ∧
    seen (step (at16 1043 [(14, 6)] [(6, cell16 [0xA0, 0, 0, 0, 15])])) [] = some (.ok, 1040, []) := by decide
/-- A41 and A8. -/
theorem test_mul :
    seen (step (one [0xC0, 0x00, 0x0A, 0x00, 0x0B] [(9, 300), (10, 300)])) [10, 11] =
      some (.ok, 1028, [some 0x5F90, some 300]) ∧
    seen (step (one [0xC0, 0x00, 0x0A, 0x00, 0x0A] [(9, 0xFFFF)])) [10] = some (.ok, 1028, [some 1]) := by decide
/-- A10 and A40: a quotient, and a zero divisor that no flag hides. -/
theorem test_div :
    seen (step (one [0xE0, 0x00, 0x0A, 0x00, 0x0B] [(9, 0xFFFF), (10, 2)])) [10, 11] =
      some (.ok, 1028, [some 0x7FFF, some 2]) ∧
    faulted (step (one [0xF0, 0x00, 0x0A, 0x00, 0x0B] [(9, 5)])) = some .divideByZero := by decide
/-- A39: absorbed at the second load, before the divisor is looked at. -/
theorem test_div_absorbed :
    seen (step (one [0xF0, 0x00, 0x0A, 0x13, 0x88] [(9, 5)])) [10] = some (.ok, 1028, [some 5]) := by decide
/-- A16 to A27, the wider profiles. -/
theorem test_datapath_by_profile :
    addW .w32 0xFFFFFFFF 1 = 0 ∧ subW .w32 0 1 = 0xFFFFFFFF ∧ mulW .w32 0x12345678 0x10 = 0x23456780 ∧
    divW 0xFFFFFFFF 0x10000 = 0xFFFF ∧ addW .w64 0xFFFFFFFFFFFFFFFF 1 = 0 ∧ subW .w64 0 1 = 0xFFFFFFFFFFFFFFFF ∧
    mulW .w64 0xFFFFFFFFFFFFFFFF 0xFFFFFFFFFFFFFFFF = 1 ∧ divW 0xFFFFFFFFFFFFFFFF 2 = 0x7FFFFFFFFFFFFFFF := by decide

/-! ### Fetch, errors and devices -/

/-- T2, T4, T5 and T6. -/
theorem test_fetch :
    seen (step (at16 5000 [] [])) [] = some (.err (.addressNotPopulated 5000), 5000, []) ∧
    faulted (step (at16 4097 [] [])) = some .boundaryAddress ∧ faulted (step (at16 4095 [] [])) = some .boundaryAddress ∧
    seen (step (at16 100 [(99, 0x0120), (100, 10), (101, 7)] [])) [10] = some (.ok, 103, [some 7]) := by decide
/-- T10: a fetch from a device that wraps to address 0. -/
theorem test_fetch_device :
    calls (step (withDevice (at16 0xFFFE [] []) 0xFFF0 0xFFFF [.ok 0x11, .ok 0x22])) =
      [⟨0, .load 0xFFFE, .ok 0x11⟩, ⟨0, .load 0xFFFF, .ok 0x22⟩] ∧
    seen (step (withDevice (at16 0xFFFE [] []) 0xFFF0 0xFFFF [.ok 0x11, .ok 0x22])) [] = some (.ok, 1, []) := by decide
/-- CP13 and CP14: the phases after Compare run `COPY 32, 0` and `LOAD 0, 1034`. -/
theorem test_phases :
    seen (step (at16 1047 [(31, 1052)] [(7, ⟨0, 0x40, 0x20⟩), (8, ⟨0, 1034, 0⟩)])) [] = some (.ok, 1055, []) ∧
    seen (step (at16 1048 [] [(7, ⟨0, 0x40, 0x20⟩), (8, ⟨0, 1034, 0⟩)])) [] = some (.ok, 1037, []) := by decide
/-- EP1 and EP2: escalated whatever `nd`; EP3: recorded at 420. -/
theorem test_policy_escalates_or_records :
    seen (step (one [0x20, 0x13, 0x88, 0, 5] [])) [420] = some (.err (.addressNotPopulated 5000), 1025, [some 0]) ∧
    seen (step (one [0x24, 0x13, 0x88, 0, 5] [])) [420] = some (.err (.addressNotPopulated 5000), 1025, [some 0]) ∧
    seen (step (one [0x28, 0x13, 0x88, 0, 5] [])) [420] = some (.ok, 1028, [some 1025]) := by decide
/-- EP4 to EP8. -/
theorem test_policy_absorbs : ∀ ob ∈ ([0x2C, 0x30, 0x34, 0x38, 0x3C] : List Byte),
    seen (step (one [ob, 0x13, 0x88, 0, 5] [])) [420] = some (.ok, 1028, [some 0]) := by decide
/-- DG1 to DG4. -/
theorem test_diagnostic_address :
    seen (step (withDiag (one [0x28, 0x13, 0x88, 0, 5] []) 0)) [] = some (.ok, 1028, []) ∧
    seen (step (withDiag (one [0x28, 0x13, 0x88, 0, 5] []) 1025)) [1025] = some (.ok, 1028, [some 1]) ∧
    faulted (step (withDiag (one [0x28, 0x13, 0x88, 0, 5] []) 4097)) = some .boundaryAddress ∧
    faulted (step (withDiag (one [0x28, 0x13, 0x88, 0, 5] []) 6000)) = some .diagnosticLoop := by decide
/-- DG5: two pushes that fail, then one that succeeds. -/
theorem test_diagnostic_retries :
    calls (step (withDevice (withDiag (one [0x28, 0x13, 0x88, 0, 5] []) 0x2000) 0x2000 0x2000 [.failed 1, .failed 2, .ok 0])) =
      [⟨0, .push 0x2000 1025, .failed 1⟩, ⟨0, .push 0x2000 1025, .failed 2⟩, ⟨0, .push 0x2000 1025, .ok 0⟩] := by decide
/-- V18, V19 and M18. -/
theorem test_device_accesses :
    seen (step (withDevice (one [0x40, 0x20, 0x00, 0x00, 0x0A] []) 0x2000 0x2FFF [.ok 0x1234])) [10] =
      some (.ok, 1028, [some 0x1234]) ∧
    seen (step (withDevice (one [0x20, 0x20, 0x00, 0x00, 0x07] []) 0x2000 0x2FFF [.failed 0xEE])) [] =
      some (.err (.deviceError 0xEE), 1025, []) ∧
    calls (step (withDevice (one [0x20, 0x20, 0x00, 0x00, 0x07] []) 0x2000 0x2FFF [.ok 0])) =
      [⟨0, .push 0x2000 7, .ok 0⟩] := by decide
/-- M11, M13, M14, M15 and M16. -/
theorem test_device_claims :
    (withDevice State.reset 4097 5000 []).place 4097 = .boundary ∧
    State.place { State.reset with devices := [⟨0x2000, 0x2FFF⟩, ⟨0x2800, 0x3FFF⟩] } 0x2800 = .device 0 ∧
    State.place { State.reset with devices := [⟨0x2000, 0x2FFF⟩, ⟨0x2800, 0x3FFF⟩] } 0x3000 = .device 1 ∧
    (withDevice State.reset 0 0xFFFF []).place 5 = .data 4 ∧ (withDevice State.reset 0 0xFFFF []).place 5000 = .device 0 ∧
    (withDevice State.reset 0x5000 0x4000 []).place 0x4800 = .unpopulated := by decide
/-- A write that stores what an unlisted word reads as removes the entry: equal memories are equal lists. -/
theorem test_memory_canonical :
    (State.reset.setData 3 7).setData 3 0 = State.reset ∧
    ((State.reset.setData 9 1).setData 3 7).data = [(3, 7), (9, 1)] := by decide
/-- B5: a W32 image read back through the bus. -/
theorem test_construct_w32 :
    (construct (small .w32) [0x80, 0, 0, 0, 0x0A, 0x12, 0x34, 0x56, 0x78] [] [] 0).map (fun s => [2, 3, 4].map s.peek) =
      some [some 0x80, some 0x0A, some 0x12345678] := by decide
/-- The run of P6: two ticks to the fault; the run of a STOP ends with its error. -/
theorem test_run_ends :
    faulted (runUntilErr 3 (at16 1025 [] [(0, cell16 [0x20, 0, 10, 0, 7]), (1, cell16 [0xF8, 0, 10, 0, 11])])) =
      some .divideByZero ∧
    seen (runUntilErr 3 (at16 1025 [] [(1, cell16 [0x20, 0xFF, 0xFF, 0, 0])])) [] =
      some (.err (.addressNotPopulated 0xFFFF), 1028, []) := by decide

/-! ### The hypotheses of the obligations are met

Each theorem shows states and operands that meet the hypotheses of the obligation it names, clause by clause, at the ends of the
ranges where a clause has a range. -/

/-- DecodeReadsEveryField: every clause, at the lowest and the highest low bits. -/
theorem test_meets_DecodeReadsEveryField :
    (0 = false.toNat * 16 + false.toNat * 8 + false.toNat * 4 + Speed.fast.code ∧
      ∀ c < 8, (BitVec.ofNat 64 (c * 32)).toNat % 256 = c * 32 + 0) ∧
    (31 = true.toNat * 16 + true.toNat * 8 + true.toNat * 4 + Speed.halt.code ∧
      ∀ c < 8, (BitVec.ofNat 64 (0xAB00 + c * 32 + 31)).toNat % 256 = c * 32 + 31) := by decide

/-- DecodeOfEncodedBytes: the widest operands of each profile. -/
theorem test_meets_DecodeOfEncodedBytes :
    (Instr.add .none .halt 0xFFFF 0).wf .w16 = true ∧ (Instr.add .none .halt 0 0xFFFFFFFF).wf .w32 = true ∧
    (Instr.add .none .halt 0xFFFFFFFFFFFFFFFF 0).wf .w64 = true ∧ Instr.nop.wf .w16 = true := by decide

theorem test_meets_EncodeOfDecodedBytes :
    decodeBytes .w16 [0x20, 0xFF, 0xFF, 0, 0, 9] = .ok (.load .none .fast 0xFFFF 0, [9]) ∧
    Instr.load .none .fast 0xFFFF 0 ≠ .nop := ⟨rfl, by decide⟩

/-- ConstructionRefusedExactlyWhenIllFormed: the widest addresses; and an image just long enough, and one byte too short. -/
theorem test_meets_ConstructionRefusedExactlyWhenIllFormed :
    fits .w16 0xFFFF = true ∧ (∀ d ∈ [(⟨0xFFFF, 0⟩ : Device)], d.wf .w16 = true) ∧
    (construct { small .w16 with diagAddr := 0xFFFF, resetPc := 0xFFFF } [0, 0, 0, 0, 0] [⟨0xFFFF, 0⟩] [] 0).isSome = true ∧
    construct { small .w16 with diagAddr := 0xFFFF, resetPc := 0xFFFF } [0, 0, 0, 0] [⟨0xFFFF, 0⟩] [] 0 = none := by decide

/-- ConstructedStateIsAsTheImageSays, ConstructionRoundTrip, ConstructedStateMeetsTheInvariants: a machine with two cells, the
first and the last of which are in range. -/
theorem test_meets_construction :
    (∃ s, construct { small .w16 with instructionSize := 6 } [0x20, 0, 1, 0, 2, 0x40, 0, 3, 0, 4] [⟨9, 9⟩] [.ok 1] 5 = some s) ∧
    0 < 6 / 3 ∧ 1 < 6 / 3 ∧ 0 < 6 ∧ 5 < 6 := ⟨⟨_, rfl⟩, by decide⟩

theorem test_meets_ImageBytesPastTheMinimumAreIgnored : imageMin (small .w64) ≤ (List.replicate 17 (0 : Byte)).length := by decide

/-- AddressSpacePartition: both ends of every region of EX16. -/
theorem test_meets_AddressSpacePartition :
    State.reset.cfg.dataSize = 1024 ∧ State.reset.cfg.instructionSize = 3072 ∧
    [0, 1, 1024, 1025, 4096, 4097, 4098, 0xFFFF].map State.reset.place =
      [.register, .data 0, .data 1023, .instruction 0, .instruction 3071, .boundary, .unpopulated, .unpopulated] := by decide

/-- FirstDeviceInOrderClaims: the first address past `A_TOP` and the last of all, claimed and unclaimed. -/
theorem test_meets_FirstDeviceInOrderClaims :
    1024 + 1 + 3072 < (4098 : Word).toNat ∧ (withDevice State.reset 4098 4098 []).place 4098 = .device 0 ∧
    1024 + 1 + 3072 < (0xFFFF : Word).toNat ∧ (withDevice State.reset 4098 4098 []).place 0xFFFF = .unpopulated := by decide

/-- DataAddressesHoldWholeWords: both ends of the data segment. -/
theorem test_meets_DataAddressesHoldWholeWords :
    1 ≤ (1 : Word).toNat ∧ (1 : Word).toNat ≤ State.reset.cfg.dataSize ∧ 1 ≤ (1024 : Word).toNat ∧
    (1024 : Word).toNat ≤ State.reset.cfg.dataSize := by decide

/-- SpeedTagHasNoEffect: an opcode byte for each value of the tag. -/
theorem test_meets_SpeedTagHasNoEffect :
    (0xFC : Byte).toNat % 4 = 0 ∧ (0x01 : Byte).toNat % 4 = 1 ∧ (0x22 : Byte).toNat % 4 = 2 ∧ (0xFF : Byte).toNat % 4 = 3 := by
  decide

/-- PushThenLoad and PushChangesOneAddress: both ends of the static regions. -/
theorem test_meets_PushThenLoad :
    (0 : Word).toNat ≤ 1024 ∧ (1024 : Word).toNat ≤ 1024 ∧ 1024 + 1 ≤ (1025 : Word).toNat ∧ (4096 : Word).toNat ≤ 1024 + 3072 ∧
    [0, 1, 1024, 1025, 4096].all State.reset.isStatic = true := by decide

/-- LoadsAndFailedPushesWriteNothing: one call for each clause. -/
theorem test_meets_LoadsAndFailedPushesWriteNothing :
    (∃ v t, State.reset.load 1 = .ok v t) ∧ (∃ e t, State.reset.load 4098 = .err e t) ∧
    (∃ e t, State.reset.push 4098 7 = .err e t) ∧
    (withDevice State.reset 4098 4098 [.ok 0]).place 4098 = .device 0 ∧
    (∃ t, (withDevice State.reset 4098 4098 [.ok 0]).push 4098 7 = .ok () t) :=
  ⟨⟨_, _, rfl⟩, ⟨_, _, rfl⟩, ⟨_, _, rfl⟩, by decide, ⟨_, rfl⟩⟩

/-- DeviceCallsTakeTheNextAnswer: a settled answer of each kind, and none. -/
theorem test_meets_DeviceCallsTakeTheNextAnswer :
    (withDevice State.reset 4098 4098 [.ok 7]).place 4098 = .device 0 ∧
    (withDevice State.reset 4098 4098 [.ok 7]).script = .ok 7 :: [] ∧
    (withDevice State.reset 4098 4098 [.failed 7, .ok 1]).place 4098 = .device 0 ∧
    (withDevice State.reset 4098 4098 [.failed 7, .ok 1]).script = .failed 7 :: [.ok 1] ∧
    (withDevice State.reset 4098 0xFFFF []).place 0xFFFF = .device 0 ∧
    (withDevice State.reset 4098 0xFFFF []).script = [] := by decide

theorem test_meets_BoundaryAddressFaults :
    (4097 : Word).toNat = State.reset.cfg.dataSize + 1 + State.reset.cfg.instructionSize ∧ (at16 4097 [] []).regZero = 4097 := by
  decide

/-- FetchReadsThreeConsecutiveWords: the lowest and the highest address whose three words are static. -/
theorem test_meets_FetchReadsThreeConsecutiveWords :
    [0, (0 + 1) % 2 ^ 16, (0 + 2) % 2 ^ 16].map (fun n => (at16 0 [(0, 8), (1, 9)] []).peek (BitVec.ofNat 64 n)) =
      [some 0, some 8, some 9] ∧
    [4094, (4094 + 1) % 2 ^ 16, (4094 + 2) % 2 ^ 16].map
      (fun n => (at16 4094 [] [(1023, ⟨7, 8, 9⟩)]).peek (BitVec.ofNat 64 n)) = [some 7, some 8, some 9] := by decide

/-- FetchReadsThreeConsecutiveWords: T10's fetch, through a device and past the top of the address space to 0. -/
theorem test_meets_a_fetch_through_a_device :
    (0xFFFF : Word) = BitVec.ofNat 64 ((0xFFFE + 1) % 2 ^ 16) ∧ (0 : Word) = BitVec.ofNat 64 ((0xFFFE + 2) % 2 ^ 16) ∧
    ∃ s1 s2 s3 : State, (withDevice (at16 0xFFFE [] []) 0xFFF0 0xFFFF [.ok 0x11, .ok 0x22]).load 0xFFFE = .ok 0x11 s1 ∧
      s1.load 0xFFFF = .ok 0x22 s2 ∧ s2.load 0 = .ok 0xFFFE s3 := ⟨by decide, by decide, _, _, _, rfl, rfl, rfl⟩

theorem test_meets_StepRunsTheDecodedInstruction : ∃ words t, (one [0x20, 0, 10, 0, 5] []).fetch = .ok words t := ⟨_, _, rfl⟩

/-- StepRunsTheCellAtRegZero: the first and the last cell. -/
theorem test_meets_StepRunsTheCellAtRegZero :
    Config.ex16.wf = true ∧ 0 < nCells Config.ex16 ∧ 1023 < nCells Config.ex16 ∧
    (at16 1025 [] [(0, ⟨0x83, 1, 2⟩)]).cell 0 = encode (.add .none .halt 1 2) ∧ (1025 : Word).toNat = 1024 + 1 + 3 * 0 ∧
    (at16 4094 [] [(1023, ⟨0x83, 1, 2⟩)]).cell 1023 = encode (.add .none .halt 1 2) ∧ (4094 : Word).toNat = 1024 + 1 + 3 * 1023 := by
  decide

/-- FetchPhasesAfterCompare: the first and the last cell of each phase. -/
theorem test_meets_FetchPhasesAfterCompare :
    Config.ex16.wf = true ∧ (1025 : Word).toNat = 1024 + 1 + 3 * 0 ∧
    (1023 < nCells Config.ex16 ∧ (4094 : Word).toNat = 1024 + 1 + 3 * 1023) ∧
    (0 + 1 < nCells Config.ex16 ∧ (1026 : Word).toNat = 1024 + 1 + 3 * 0 + 1 ∧ (1027 : Word).toNat = 1024 + 1 + 3 * 0 + 2) ∧
    (1022 + 1 < nCells Config.ex16 ∧ (4092 : Word).toNat = 1024 + 1 + 3 * 1022 + 1 ∧
      (4093 : Word).toNat = 1024 + 1 + 3 * 1022 + 2) := by decide

/-- FetchFailureEscalates: for each of the three loads, one that fails and one that reaches `A_TOP`. -/
theorem test_meets_FetchFailureEscalates :
    (∃ e t, (at16 5000 [] []).load 5000 = .err e t) ∧
    (∃ w0 s1 e t, (withDevice (at16 5000 [] []) 5000 5000 [.ok 0x20]).load 5000 = .ok w0 s1 ∧ s1.load 5001 = .err e t) ∧
    (∃ w0 s1 w1 s2 e t, (withDevice (at16 5000 [] []) 5000 5001 [.ok 0x20, .ok 1]).load 5000 = .ok w0 s1 ∧
      s1.load 5001 = .ok w1 s2 ∧ s2.load 5002 = .err e t) ∧
    (at16 4097 [] []).load 4097 = .boundary ∧
    (∃ w0 s1, (at16 4096 [] []).load 4096 = .ok w0 s1 ∧ s1.load 4097 = .boundary) ∧
    (∃ w0 s1 w1 s2, (at16 4095 [] []).load 4095 = .ok w0 s1 ∧ s1.load 4096 = .ok w1 s2 ∧ s2.load 4097 = .boundary) :=
  ⟨⟨_, _, rfl⟩, ⟨_, _, _, _, rfl, rfl⟩, ⟨_, _, _, _, _, _, rfl, rfl, rfl⟩, rfl, ⟨_, _, rfl, rfl⟩, ⟨_, _, _, _, rfl, rfl, rfl⟩⟩

theorem test_meets_FetchSeesEarlierWrites :
    State.reset.cfg.wf = true ∧ 1023 < nCells State.reset.cfg ∧ (4094 : Word).toNat = State.reset.cfg.dataSize + 1 + 3 * 1023 := by
  decide

/-- EscalatedTickWritesNothing, OnlyTwoErrorsAreRaised, TickAfterErrRepeatsIt: an escalated tick without devices. -/
theorem test_meets_an_escalated_tick :
    (at16 5000 [] []).devices = [] ∧
    ∃ t, step (at16 5000 [] []) = .next t ∧ t.result = .err (.addressNotPopulated 5000) := ⟨rfl, _, rfl, rfl⟩

/-- LoadStoresItsImmediate and CopyStoresTheSourceWord: `reg_zero`, and both ends of the other static regions. -/
theorem test_meets_stores : ∀ a ∈ ([0, 1, 1024, 1025, 4096] : List Word),
    State.reset.isStatic a = true ∧ ∃ v, State.reset.peek a = some v := by
  intro a h
  fin_cases h <;> exact ⟨by decide, _, rfl⟩

/-- The statements of Compare, Add, Sub, Mul and Div: operands that are equal, less and greater, with a divisor that is not 0. -/
theorem test_meets_two_operands :
    (at16 1025 [(9, 5), (10, 5), (11, 6)] []).peek 10 = some 5 ∧ (at16 1025 [(9, 5), (10, 5), (11, 6)] []).peek 11 = some 5 ∧
    (at16 1025 [(9, 5), (10, 5), (11, 6)] []).peek 12 = some 6 ∧ (5 : Word) ≠ 0 ∧ (5 : Word).toNat < (6 : Word).toNat := by decide

/-- WritesToAddressZeroJump: a Word that is 0, and the widest Word of the profile. -/
theorem test_meets_WritesToAddressZeroJump :
    State.reset.peek 10 = some 0 ∧ (at16 1025 [(9, 0xFFFF)] []).peek 10 = some 0xFFFF ∧ (0xFFFF : Word) ≠ 0 ∧
    (0xFFFF : Word).toNat < 2 ^ State.reset.cfg.width.bits := by decide

theorem test_meets_PseudoInstructionsDoAsNamed :
    State.reset.peek 10 = some 0 ∧ State.reset.isStatic 11 = true ∧ fits State.reset.cfg.width 0xFFFF = true ∧
    fits State.reset.cfg.width State.reset.regZero = true ∧ State.reset.place 0xFFFF = .unpopulated := by decide

/-- StaticAccessesComplete: every instruction, at the ends of the static regions; only DIV has a divisor, here one that is not 0. -/
theorem test_meets_StaticAccessesComplete :
    [Instr.nop, .load .none .fast 0 11, .copy .none .fast 1024 1025, .cmp .none .fast 4096 11, .add .none .fast 10 11,
      .sub .none .fast 10 11, .mul .none .fast 10 11].all
      (fun i => i.accesses.all (at16 1025 [(10, 3)] []).isStatic && i.divisor == none) = true ∧
    (Instr.div .none .fast 10 11).accesses.all (at16 1025 [(10, 3)] []).isStatic = true ∧
    (Instr.div .none .fast 10 11).divisor = some 11 ∧ (at16 1025 [(10, 3)] []).peek 11 = some 3 := by decide

/-- SuccessfulBusCallsComplete: two loads and a push of one device, and the push of LOAD and of COPY. -/
theorem test_meets_SuccessfulBusCallsComplete :
    ∃ s1 s2 : State, (withDevice State.reset 5000 5001 [.ok 6, .ok 3, .ok 0]).load 5000 = .ok 6 s1 ∧ s1.load 5001 = .ok 3 s2 ∧
      (3 : Word) ≠ 0 ∧ (∀ v, ∃ s3, s2.push 5000 v = .ok () s3) ∧ (∃ s2, s1.push 5001 6 = .ok () s2) ∧
      ∃ t, (withDevice State.reset 5000 5001 [.ok 6]).push 5000 5001 = .ok () t :=
  ⟨_, _, rfl, rfl, by decide, fun _ => ⟨_, rfl⟩, ⟨_, rfl⟩, _, rfl⟩

theorem test_meets_DatapathIsUnsignedModular :
    (0xFFFF : Word).toNat < 2 ^ Width.w16.bits ∧ (0xFFFFFFFFFFFFFFFF : Word).toNat < 2 ^ Width.w64.bits ∧ (0xFFFF : Word) ≠ 0 ∧
    (0 : Word).toNat < (0xFFFF : Word).toNat := by decide

/-- FirstFailingCallEndsTheInstruction: a push of LOAD, a first load, a second load and a push that fail, each of which the
hypotheses of one clause ask for; with each row of the policy's table. -/
theorem test_meets_FirstFailingCallEndsTheInstruction :
    (∃ e t, State.reset.push 5000 7 = .err e t) ∧ (∃ e t, State.reset.load 5000 = .err e t) ∧
    (∃ s1 e t, State.reset.load 10 = .ok 0 s1 ∧ s1.push 5000 0 = .err e t) ∧
    (∃ s1 e t, State.reset.load 10 = .ok 0 s1 ∧ s1.load 5000 = .err e t) ∧
    (∃ s1 s2, (withDevice State.reset 5000 5001 [.ok 6, .ok 3, .failed 9]).load 5000 = .ok 6 s1 ∧ s1.load 5001 = .ok 3 s2 ∧
      (3 : Word) ≠ 0 ∧ ∀ v, ∃ t, s2.push 5000 v = .err (.deviceError 9) t) :=
  ⟨⟨_, _, rfl⟩, ⟨_, _, rfl⟩, ⟨_, _, _, rfl, rfl⟩, ⟨_, _, _, rfl, rfl⟩, _, _, rfl, rfl, by decide, fun _ => ⟨_, rfl⟩⟩

/-- The diagnostic write's three ends, which the last clauses of `PolicyOutcome` ask for. -/
theorem test_meets_PolicyOutcome :
    (∃ t, State.reset.diagnosticWrite = .done t) ∧ (withDiag State.reset 4097).diagnosticWrite = .boundary ∧
    (withDiag State.reset 6000).diagnosticWrite = .hang := ⟨⟨_, rfl⟩, rfl, rfl⟩

/-- UnpopulatedAccessIsAbsorbedOrEscalated and the statements of the diagnostic write: an instruction whose second access is the
first that nothing claims, with each kind of flags, and each kind of `DIAG_ADDR`. -/
theorem test_meets_unpopulated_access :
    (Instr.copy ⟨false, true, false⟩ .fast 10 5000).accesses = [10] ++ 5000 :: [] ∧
    [10].all State.reset.isStatic = true ∧ State.reset.place 5000 = .unpopulated ∧
    (Instr.copy ⟨false, true, false⟩ .fast 10 5000).flags = ⟨false, true, false⟩ ∧
    (Instr.copy ⟨true, false, false⟩ .fast 10 5000).flags.ie = true ∧
    (Instr.copy ⟨false, true, true⟩ .fast 10 5000).flags = ⟨false, true, true⟩ ∧
    (Instr.copy ⟨false, false, true⟩ .fast 10 5000).flags.nh = false ∧
    State.reset.isStatic State.reset.cfg.diagAddr = true ∧
    (withDiag State.reset 6000).place (withDiag State.reset 6000).cfg.diagAddr = .unpopulated ∧
    (withDiag State.reset 6000).place 5000 = .unpopulated ∧
    (withDiag State.reset 4097).cfg.diagAddr.toNat = State.reset.cfg.dataSize + 1 + State.reset.cfg.instructionSize := by decide

/-- DiagnosticWriteRetriesUntilTaken and DiagnosticWriteEndsAsTheOracleSays: no failure, and two. -/
theorem test_meets_diagnostic_device :
    (withDiag (withDevice State.reset 6000 6000 [.ok 0]) 6000).place 6000 = .device 0 ∧
    (withDiag (withDevice State.reset 6000 6000 [.ok 0]) 6000).script = [].map DeviceAnswer.failed ++ .ok 0 :: [] ∧
    (withDiag (withDevice State.reset 6000 6000 [.failed 1, .failed 2, .ok 0, .ok 4]) 6000).script =
      [1, 2].map DeviceAnswer.failed ++ .ok 0 :: [.ok 4] ∧
    (withDiag (withDevice State.reset 6000 6000 [.failed 1, .failed 2]) 6000).script = [1, 2].map DeviceAnswer.failed := by decide

/-- BoundaryAccessFaultsTheInstruction: LOAD's push, a first load, and COPY's push and a second load after a device's success. -/
theorem test_meets_a_boundary_call :
    State.reset.push 4097 7 = .boundary ∧ State.reset.load 4097 = .boundary ∧
    ∃ s1, (withDevice State.reset 5000 5000 [.ok 6]).load 5000 = .ok 6 s1 ∧ s1.push 4097 6 = .boundary ∧
      s1.load 4097 = .boundary := ⟨rfl, rfl, _, rfl, rfl, rfl⟩

theorem test_meets_BoundaryAccessFaultsTheInstruction :
    (Instr.add ⟨true, true, true⟩ .fast 10 4097).accesses = [10] ++ 4097 :: [10] ∧
    [10].all State.reset.isStatic = true ∧
    (4097 : Word).toNat = State.reset.cfg.dataSize + 1 + State.reset.cfg.instructionSize := by decide

/-- FrameOfEveryInstruction and OkTickAdvancesByThree: an instruction that stores, and an address it leaves alone. -/
theorem test_meets_frame :
    ∃ t, exec (.load .none .fast 10 5) State.reset = .next t ∧ t.result = .ok ∧
      (Instr.load .none .fast 10 5).destination ≠ some 0 ∧ (Instr.load .none .fast 10 5).opClass ≠ .compare ∧
      (11 : Word) ≠ 0 ∧ (Instr.load .none .fast 10 5).destination ≠ some 11 ∧
      ¬((Instr.load .none .fast 10 5).flags.asksDiagnostic = true ∧ (11 : Word) = State.reset.cfg.diagAddr) :=
  ⟨_, rfl, rfl, by decide⟩

/-- The invariants that every step keeps: a step from a state that lists data and cells and has a device. -/
theorem test_meets_invariants :
    (withDevice (at16 1025 [(9, 0xFFFF)] [(0, cell16 [0x80, 0, 10, 0, 10])]) 5000 6000 [.ok 1]).fits = true ∧
    Memory.wf (withDevice (at16 1025 [(9, 0xFFFF)] [(0, cell16 [0x80, 0, 10, 0, 10])]) 5000 6000 [.ok 1]) = true ∧
    ∃ t, step (withDevice (at16 1025 [(9, 0xFFFF)] [(0, cell16 [0x80, 0, 10, 0, 10])]) 5000 6000 [.ok 1]) = .next t :=
  ⟨by decide, by decide, _, rfl⟩

/-- WithoutDevicesNothingIsDrawn. -/
theorem test_meets_WithoutDevicesNothingIsDrawn : State.reset.devices = [] ∧ ∃ t, step State.reset = .next t := ⟨rfl, _, rfl⟩

end Sys2Proof.Tests
end

section
/-! Proofs about the machine's scope: the width invariant and the canonical form of a constructed machine, the outcomes of a
tick, and what construction refuses. -/

namespace Sys2Proof

/-! ### Words of the profile -/

theorem fits_zero (w : Width) : fits w 0 = true := by
  rw [fits_iff]
  exact w.pow_pos

theorem bigEndian_take_lt (w : Width) (bytes : List Byte) : bigEndian (bytes.take w.bytes) < 2 ^ w.bits := by
  have h8 : (2 : Nat) ^ 8 = 256 := rfl
  calc bigEndian (bytes.take w.bytes)
      < 256 ^ (bytes.take w.bytes).length := bigEndian_lt _
    _ ≤ 256 ^ w.bytes := Nat.pow_le_pow_right (by decide) (List.length_take_le ..)
    _ = 2 ^ w.bits := by rw [← w.eight_mul_bytes, Nat.pow_mul, h8]

theorem fits_ofNat {w : Width} {n : Nat} (h : n < 2 ^ w.bits) : fits w (BitVec.ofNat 64 n) = true := by
  rw [fits_iff, BitVec.toNat_ofNat]
  exact (Nat.mod_le ..).trans_lt h

/-- An operand of the image is `BYTE_SIZE` bytes long, so it is a Word of the profile (R64, R65). -/
theorem fits_parseCell (w : Width) (bytes : List Byte) :
    fits w (parseCell w bytes).a1 = true ∧ fits w (parseCell w bytes).a2 = true :=
  ⟨fits_ofNat (bigEndian_take_lt ..), fits_ofNat (bigEndian_take_lt ..)⟩

theorem Config.wf_iff (c : Config) : c.wf = true ↔
    1 ≤ c.dataSize ∧ 3 ≤ c.instructionSize ∧ c.instructionSize % 3 = 0 ∧
    c.dataSize + 1 + c.instructionSize ≤ 2 ^ c.width.bits - 1 ∧
    fits c.width c.diagAddr = true ∧ fits c.width c.resetPc = true := by
  simp only [Config.wf, Bool.and_eq_true, decide_eq_true_eq, and_assoc]

theorem bigEndian_replicate_zero (n : Nat) : bigEndian (List.replicate n 0) = 0 := by
  induction n with
  | zero => rfl
  | succ n ih =>
    rw [List.replicate_succ, bigEndian_cons, ih]
    simp

end Sys2Proof

namespace Sys2Proof.Machine

/-! ### Bus calls that leave the CORE alone -/

theorem load_ok_only {s t : State} {a v : Word} (h : s.load a = .ok v t) : DeviceCallsOnly s t := by
  rcases load_cases s a with ⟨_, _, hl⟩ | ⟨_, _, _, _, hl⟩ | ⟨_, _, _, _, hl⟩ | ⟨_, hl⟩ | ⟨_, hl⟩ <;> cases hl.symm.trans h
  · exact .refl s
  · exact recordCall_only ..

theorem load_err_only {s t : State} {a : Word} {e : CpuError} (h : s.load a = .err e t) : DeviceCallsOnly s t := by
  rcases load_cases s a with ⟨_, _, hl⟩ | ⟨_, _, _, _, hl⟩ | ⟨_, _, _, _, hl⟩ | ⟨_, hl⟩ | ⟨_, hl⟩ <;> cases hl.symm.trans h
  · exact recordCall_only ..
  · exact .refl s

theorem push_err_only {s t : State} {a v : Word} {e : CpuError} (h : s.push a v = .err e t) : DeviceCallsOnly s t := by
  rcases push_cases s a v with ⟨_, hp⟩ | ⟨_, _, _, _, hp⟩ | ⟨_, _, _, _, hp⟩ | ⟨_, hp⟩ | ⟨_, hp⟩ <;> cases hp.symm.trans h
  · exact recordCall_only ..
  · exact .refl s

/-- A push that succeeds wrote a static address, or was one device call. -/
theorem push_ok_cases {s t : State} {a v : Word} (h : s.push a v = .ok () t) :
    (s.isStatic a = true ∧ t = s.poke a v) ∨ DeviceCallsOnly s t := by
  rcases push_cases s a v with ⟨hs, hp⟩ | ⟨_, _, _, _, hp⟩ | ⟨_, _, _, _, hp⟩ | ⟨_, hp⟩ | ⟨_, hp⟩ <;> cases hp.symm.trans h
  · exact .inl ⟨hs, rfl⟩
  · exact .inr (recordCall_only ..)

/-! ### The width invariant under the state's operations -/

theorem State.fits_iff (s : State) : s.fits = true ↔
    s.cfg.wf = true ∧ Sys2Proof.fits s.cfg.width s.regZero = true ∧
    (∀ e ∈ s.data, Sys2Proof.fits s.cfg.width e.2 = true) ∧
    (∀ e ∈ s.cells, Sys2Proof.fits s.cfg.width e.2.a1 = true ∧ Sys2Proof.fits s.cfg.width e.2.a2 = true) ∧
    (∀ d ∈ s.devices, d.wf s.cfg.width = true) := by
  simp only [State.fits, Bool.and_eq_true, List.all_eq_true, and_assoc]

/-- `State.fits` is a property of the configuration, `reg_zero`, the two arrays and the devices alone. -/
theorem State.fits_congr {s t : State} (hc : t.cfg = s.cfg) (hr : t.regZero = s.regZero) (hd : t.data = s.data)
    (hk : t.cells = s.cells) (hv : t.devices = s.devices) : t.fits = s.fits := by
  unfold State.fits
  rw [hc, hr, hd, hk, hv]

theorem State.fits_setRegZero {s : State} {v : Word} (h : s.fits = true) (hv : Sys2Proof.fits s.cfg.width v = true) :
    State.fits { s with regZero := v } = true := by
  rw [State.fits_iff] at h ⊢
  exact ⟨h.1, hv, h.2.2⟩

theorem State.fits_setData {s : State} {v : Word} (h : s.fits = true) (hv : Sys2Proof.fits s.cfg.width v = true)
    (i : Nat) : (s.setData i v).fits = true := by
  rw [State.fits_iff] at h ⊢
  obtain ⟨hcfg, hreg, hdata, hrest⟩ := h
  refine ⟨hcfg, hreg, fun e he => ?_, hrest⟩
  rcases mem_sparseSet _ _ _ _ he with rfl | he
  · exact hv
  · exact hdata e he

theorem State.fits_setCell {s : State} {c : CellFields} (h : s.fits = true)
    (hc : Sys2Proof.fits s.cfg.width c.a1 = true ∧ Sys2Proof.fits s.cfg.width c.a2 = true) (k : Nat) :
    (s.setCell k c).fits = true := by
  rw [State.fits_iff] at h ⊢
  obtain ⟨hcfg, hreg, hdata, hcells, hdev⟩ := h
  refine ⟨hcfg, hreg, hdata, fun e he => ?_, hdev⟩
  rcases mem_sparseSet _ _ _ _ he with rfl | he
  · exact hc
  · exact hcells e he

/-- Listed or not, a data word is a Word of the profile. -/
theorem fits_dataWord {s : State} (h : s.fits = true) (i : Nat) : Sys2Proof.fits s.cfg.width (s.dataWord i) = true := by
  obtain ⟨_, _, hdata, _⟩ := (State.fits_iff s).mp h
  rcases sparseGet_mem unlistedWord s.data i with hu | hm
  · rw [State.dataWord, hu]
    exact fits_zero _
  · exact hdata _ hm

/-- Listed or not, a cell's operand fields are Words of the profile. -/
theorem fits_cell {s : State} (h : s.fits = true) (k : Nat) :
    Sys2Proof.fits s.cfg.width (s.cell k).a1 = true ∧ Sys2Proof.fits s.cfg.width (s.cell k).a2 = true := by
  obtain ⟨_, _, _, hcells, _⟩ := (State.fits_iff s).mp h
  rcases sparseGet_mem unlistedCell s.cells k with hu | hm
  · rw [State.cell, hu]
    exact ⟨fits_zero _, fits_zero _⟩
  · exact hcells _ hm

theorem fits_fieldGet {w : Width} {c : CellFields}
    (h : Sys2Proof.fits w c.a1 = true ∧ Sys2Proof.fits w c.a2 = true) (f : Nat) :
    Sys2Proof.fits w (fieldGet c f) = true := by
  match f with
  | 0 => exact fits_zextByte w c.op
  | 1 => exact h.1
  | _ + 2 => exact h.2

theorem fits_fieldSet {w : Width} {c : CellFields} {v : Word}
    (h : Sys2Proof.fits w c.a1 = true ∧ Sys2Proof.fits w c.a2 = true) (hv : Sys2Proof.fits w v = true) (f : Nat) :
    Sys2Proof.fits w (fieldSet c f v).a1 = true ∧ Sys2Proof.fits w (fieldSet c f v).a2 = true := by
  match f with
  | 0 => exact h
  | 1 => exact ⟨hv, h.2⟩
  | _ + 2 => exact ⟨h.1, hv⟩

theorem fits_peek {s : State} {a v : Word} (h : s.fits = true) (hp : s.peek a = some v) :
    Sys2Proof.fits s.cfg.width v = true := by
  obtain ⟨_, hreg, _⟩ := (State.fits_iff s).mp h
  unfold State.peek at hp
  cases hpl : s.place a <;> rw [hpl] at hp <;> cases hp
  case register => exact hreg
  case data i => exact fits_dataWord h i
  case instruction i => exact fits_fieldGet (fits_cell h _) _

theorem State.fits_poke {s : State} {v : Word} (h : s.fits = true) (hv : Sys2Proof.fits s.cfg.width v = true)
    (a : Word) : (s.poke a v).fits = true := by
  unfold State.poke
  cases s.place a with
  | register => exact State.fits_setRegZero h hv
  | data i => exact State.fits_setData h hv i
  | instruction i => exact State.fits_setCell h (fits_fieldSet (fits_cell h _) hv _) _
  | boundary => exact h
  | device d => exact h
  | unpopulated => exact h

/-! ### The width invariant under a tick -/

/-- The width invariant of a machine of profile `w`; the profile is named, so that one predicate on Words speaks of every state
of a tick. -/
structure FitsIn (w : Width) (s : State) : Prop where
  width : s.cfg.width = w
  fits : s.fits = true

namespace FitsIn

variable {w : Width} {s t : State} {a v : Word}

theorem deviceCalls (h : FitsIn w s) (hd : DeviceCallsOnly s t) : FitsIn w t :=
  ⟨hd.cfg ▸ h.width, (State.fits_congr hd.cfg hd.regZero hd.data hd.cells hd.devices).trans h.fits⟩

theorem setRegZero (h : FitsIn w s) (hv : Sys2Proof.fits w v = true) : FitsIn w { s with regZero := v } :=
  ⟨h.width, State.fits_setRegZero h.fits (h.width ▸ hv)⟩

/-- What the last tick returned is no Word that the machine holds. -/
theorem setResult (h : FitsIn w s) (r : TickResult) : FitsIn w { s with result := r } :=
  ⟨h.width, (State.fits_congr rfl rfl rfl rfl rfl).trans h.fits⟩

theorem poke (h : FitsIn w s) (hv : Sys2Proof.fits w v = true) (a : Word) : FitsIn w (s.poke a v) :=
  ⟨poke_cfg s a v ▸ h.width, State.fits_poke h.fits (h.width ▸ hv) a⟩

/-- A Word loaded from memory is held by the machine, and one loaded from a device is reduced (R27). -/
theorem loaded (h : FitsIn w s) (hl : s.load a = .ok v t) : Sys2Proof.fits w v = true := by
  rcases load_cases s a with ⟨_, hp, he⟩ | ⟨_, _, _, hn, he⟩ | ⟨_, _, _, _, he⟩ | ⟨_, he⟩ | ⟨_, he⟩ <;> cases he.symm.trans hl
  · exact h.width ▸ fits_peek h.fits hp
  · exact h.width ▸ nextAnswer_fits hn

theorem push (h : FitsIn w s) (hv : Sys2Proof.fits w v = true) (hp : s.push a v = .ok () t) : FitsIn w t := by
  rcases push_ok_cases hp with ⟨_, rfl⟩ | hd
  · exact h.poke hv a
  · exact h.deviceCalls hd

theorem regZero (h : FitsIn w s) : Sys2Proof.fits w s.regZero = true := by
  obtain ⟨_, hreg, _⟩ := (State.fits_iff s).mp h.fits
  exact h.width ▸ hreg

/-- The diagnostic write stores `reg_zero`, itself a Word of the profile (R158). -/
theorem diagnosticWrite (h : FitsIn w s) (hw : s.diagnosticWrite = .done t) : FitsIn w t := by
  rcases diagnosticWrite_cases s with ⟨_, he⟩ | ⟨_, _, _, he, hd⟩ | ⟨_, he⟩ | ⟨_, he⟩ <;> cases he.symm.trans hw
  · exact h.poke h.regZero _
  · exact h.deviceCalls hd

theorem addRegZero (h : FitsIn w s) (v : Word) : FitsIn w { s with regZero := addW s.cfg.width s.regZero v } :=
  h.setRegZero (h.width ▸ fits_addW ..)

/-- Every shared operation keeps the width invariant, and makes Words of the profile from Words of the profile. -/
theorem kept (w : Width) : Kept (FitsIn w) (fun v => Sys2Proof.fits w v = true) where
  loadOk h hl := ⟨h.deviceCalls (load_ok_only hl), h.loaded hl⟩
  loadErr h hl := h.deviceCalls (load_err_only hl)
  pushOk h hv hp := h.push hv hp
  pushErr h hp := h.deviceCalls (push_err_only hp)
  diagnostic h hw := h.diagnosticWrite hw
  advance h := (h.addRegZero stride).setResult .ok
  escalate h := h.setResult _
  adjust h := h.addRegZero _
  arithmetic _ _ h := by
    rw [h.width]
    exact ⟨fits_addW .., fits_subW .., fits_mulW ..⟩
  quotient b h := fits_divW b h

end FitsIn

/-- Settles O58: each shared operation keeps the invariant (`FitsIn.kept`), so every instruction and the tick do. -/
theorem stepKeepsWordsOfTheProfile : Obligations.StepKeepsWordsOfTheProfile := by
  intro s t hs hstep
  exact ((FitsIn.kept s.cfg.width).step ⟨rfl, hs⟩ hstep).fits

/-! ### Construction -/

theorem buildCells_succ (w : Width) (n k : Nat) (bytes : List Byte) :
    buildCells w (n + 1) k bytes =
      if parseCell w bytes = unlistedCell then buildCells w n (k + 1) (bytes.drop (cellBytes w))
      else (k, parseCell w bytes) :: buildCells w n (k + 1) (bytes.drop (cellBytes w)) := rfl

/-- The cells built are numbered from `k` on, and their operands are Words of the profile. -/
theorem mem_buildCells {w : Width} {n k : Nat} {bytes : List Byte} {e : Nat × CellFields}
    (he : e ∈ buildCells w n k bytes) : k ≤ e.1 ∧ fits w e.2.a1 = true ∧ fits w e.2.a2 = true := by
  induction n generalizing k bytes with
  | zero => simp [buildCells] at he
  | succ n ih =>
    have later : e ∈ buildCells w n (k + 1) (bytes.drop (cellBytes w)) →
        k ≤ e.1 ∧ fits w e.2.a1 = true ∧ fits w e.2.a2 = true := fun h => (ih h).imp_left Nat.le_of_succ_le
    rw [buildCells_succ] at he
    split at he
    · exact later he
    · rcases List.mem_cons.mp he with rfl | he
      · exact ⟨le_rfl, fits_parseCell ..⟩
      · exact later he

/-- The cells built are in canonical form: each is listed where it is not the unlisted one, in the order of the image. -/
theorem buildCells_wf (w : Width) {n k m : Nat} (bytes : List Byte) (h : k + n ≤ m) :
    sparseWf unlistedCell m (buildCells w n k bytes) = true := by
  induction n generalizing k bytes with
  | zero => rfl
  | succ n ih =>
    have hrest := ih (k := k + 1) (bytes.drop (cellBytes w)) (by omega)
    rw [buildCells_succ]
    split
    · exact hrest
    · next hc =>
      simp only [sparseWf, Bool.and_eq_true, List.all_eq_true, decide_eq_true_eq]
      exact ⟨⟨⟨by omega, hc⟩, fun e he => (mem_buildCells he).1⟩, hrest⟩

theorem constructible_iff (c : Config) (image : List Byte) (devices : List Device) :
    constructible c image devices = true ↔
      c.wf = true ∧ imageMin c ≤ image.length ∧ ∀ d ∈ devices, d.wf c.width = true := by
  simp only [constructible, Bool.and_eq_true, decide_eq_true_eq, List.all_eq_true, and_assoc]

theorem construct_eq_none_iff (c : Config) (image : List Byte) (devices : List Device) (script : List DeviceAnswer)
    (draws : Nat) : construct c image devices script draws = none ↔ ¬constructible c image devices = true := by
  unfold construct
  split <;> simp_all

/-- A machine constructed is the one R180 describes, from inputs that R7 and R66 allow. -/
theorem construct_eq_some {c : Config} {image : List Byte} {devices : List Device} {script : List DeviceAnswer}
    {draws : Nat} {s : State} (h : construct c image devices script draws = some s) :
    constructible c image devices = true ∧
      s = { cfg := c, regZero := c.resetPc, data := [], cells := buildCells c.width (nCells c) 0 image,
            devices := devices, result := .noTick, script := script, draws := draws, events := [] } := by
  unfold construct at h
  split at h
  · next hc => exact ⟨hc, (Option.some.inj h).symm⟩
  · cases h

/-- Settles O13, by induction over the cells built from the image (`buildCells_wf`, `mem_buildCells`). -/
theorem constructedStateMeetsTheInvariants : Obligations.ConstructedStateMeetsTheInvariants := by
  intro c image devices script draws s h
  obtain ⟨hok, rfl⟩ := construct_eq_some h
  obtain ⟨hwf, _, hdev⟩ := (constructible_iff ..).mp hok
  obtain ⟨_, _, _, _, _, hreset⟩ := (Config.wf_iff c).mp hwf
  constructor
  · exact (Memory.wf_iff _).mpr ⟨rfl, buildCells_wf _ _ (Nat.zero_add _).le⟩
  · exact (State.fits_iff _).mpr
      ⟨hwf, hreset, fun _ he => absurd he List.not_mem_nil, fun _ he => (mem_buildCells he).2, hdev⟩

/-- Settles O8: `constructible` is R7's and R66's conditions beside those of log entry 14, which the hypotheses grant. -/
theorem constructionRefusedExactlyWhenIllFormed : Obligations.ConstructionRefusedExactlyWhenIllFormed := by
  intro c image devices script draws hdiag hreset hdev
  rw [construct_eq_none_iff, constructible_iff, Config.wf_iff]
  simp only [hdiag, hreset, iff_true_intro hdev, and_true, and_assoc]
  exact Iff.rfl

/-! ### The zero image -/

theorem parseCell_zeros (w : Width) (n : Nat) : parseCell w (List.replicate n 0) = unlistedCell := by
  have hop : (List.replicate n (0 : Byte)).headD 0 = 0 := by cases n <;> rfl
  simp only [parseCell, hop, List.drop_replicate, List.take_replicate, bigEndian_replicate_zero]
  rfl

/-- A zero image lists no cell, whatever its length. -/
theorem buildCells_zeros (w : Width) (n k m : Nat) : buildCells w n k (List.replicate m 0) = [] := by
  induction n generalizing k m with
  | zero => rfl
  | succ n ih => rw [buildCells_succ, if_pos (parseCell_zeros w m), List.drop_replicate, ih]

/-- Settles O12: 5120 bytes are `IMAGE_MIN` of EX16, and a zero image lists no cell (`buildCells_zeros`). -/
theorem resetIsTheZeroImageConstruction : Obligations.ResetIsTheZeroImageConstruction := by
  have hok : constructible .ex16 (List.replicate 5120 0) [] = true := by
    rw [constructible_iff, List.length_replicate]
    decide
  unfold Obligations.ResetIsTheZeroImageConstruction construct
  rw [if_pos hok, buildCells_zeros]
  rfl

/-- Settles O14: the reset state is a constructed machine (O12), and those meet both invariants (O13). -/
theorem resetMeetsTheInvariants : Obligations.ResetMeetsTheInvariants :=
  constructedStateMeetsTheInvariants _ _ _ _ _ _ resetIsTheZeroImageConstruction

/-! ### The outcomes of a tick -/

/-- The outcome is one of R12's four: no refusal, and no next state whose tick returned nothing. -/
def HasTickOutcome (o : Host.Outcome State Fault Refusal) : Prop := ∃ x, tickOutcome o = some x

namespace HasTickOutcome

variable {s : State} {f : Flags}

theorem advance (s : State) : HasTickOutcome (.next s.advance) := ⟨.ok s.advance, rfl⟩

theorem escalate (s : State) (e : CpuError) : HasTickOutcome (.next (s.escalate e)) := ⟨.err e (s.escalate e), rfl⟩

theorem fault (x : Fault) : HasTickOutcome (.fault x) := by
  cases x with
  | boundaryAddress => exact ⟨.fault .boundaryAddress, rfl⟩
  | divideByZero => exact ⟨.fault .divideByZero, rfl⟩
  | diagnosticLoop => exact ⟨.hang, rfl⟩

theorem takeError (f : Flags) (e : CpuError) (s : State) : HasTickOutcome (Machine.takeError f e s) := by
  rcases takeError_cases f e s with ⟨_, h⟩ | ⟨_, h⟩ | ⟨_, t, _, h⟩ | ⟨_, _, h⟩ | ⟨_, _, h⟩ <;> rw [h]
  · exact advance s
  · exact escalate s e
  · exact advance t
  · exact fault _
  · exact fault _

/-- A bus call ends the tick in an outcome of R12 when what follows its success does. -/
theorem tryBus {α : Type} {r : BusResult α} {next : α → State → Host.Outcome State Fault Refusal}
    (hnext : ∀ v t, HasTickOutcome (next v t)) : HasTickOutcome (Machine.tryBus f r next) := by
  cases r with
  | ok v t => exact hnext v t
  | err e t => exact takeError f e t
  | boundary => exact fault _

theorem pushAndAdvance (f : Flags) (a v : Word) (s : State) : HasTickOutcome (Machine.pushAndAdvance f a v s) :=
  tryBus fun _ t => advance t

theorem loadBoth {a1 a2 : Word} {next : Word → Word → State → Host.Outcome State Fault Refusal}
    (hnext : ∀ v1 v2 t, HasTickOutcome (next v1 v2 t)) : HasTickOutcome (Machine.loadBoth f a1 a2 s next) :=
  tryBus fun v1 _ => tryBus fun v2 t => hnext v1 v2 t

theorem arithmetic (op : Width → Word → Word → Word) (f : Flags) (a1 a2 : Word) (s : State) :
    HasTickOutcome (Machine.arithmetic op f a1 a2 s) :=
  loadBoth fun _ _ t => pushAndAdvance f a1 _ t

theorem exec (i : Instr) (s : State) : HasTickOutcome (Machine.exec i s) := by
  cases i with
  | nop => exact advance s
  | load f sp a1 a2 => exact pushAndAdvance f a1 a2 s
  | copy f sp a1 a2 => exact tryBus fun v t => pushAndAdvance f a2 v t
  | cmp f sp a1 a2 => exact loadBoth fun _ _ _ => advance _
  | add f sp a1 a2 => exact arithmetic addW f a1 a2 s
  | sub f sp a1 a2 => exact arithmetic subW f a1 a2 s
  | mul f sp a1 a2 => exact arithmetic mulW f a1 a2 s
  | div f sp a1 a2 =>
    refine loadBoth fun v1 v2 t => ?_
    split
    · exact fault _
    · exact pushAndAdvance f a1 _ t

theorem step (s : State) : HasTickOutcome (Machine.step s) := by
  unfold Machine.step
  split
  · exact exec _ _
  · exact escalate _ _
  · exact fault _

end HasTickOutcome

/-- Settles O29: each shared operation ends a tick in one of the four outcomes, so every instruction and the tick do. -/
theorem everyTickHasAnOutcome : Obligations.EveryTickHasAnOutcome := HasTickOutcome.step

end Sys2Proof.Machine
end

section
/-! Proofs about the machine's state: what every tick keeps of it, the cells and data that construction gives it, and what one
device call changes in it. -/

namespace Sys2Proof.Machine

/-! ### A property kept by the three kinds of update

The shared operations change the state in three ways: by device calls where a device claims the address, by writing a static
address, and in `reg_zero` and the result. -/

/-- A property that the three kinds of update keep is kept by every shared operation, whatever the Words are. -/
theorem Kept.of_updates {P : State → Prop}
    (device : ∀ {s t : State} {a : Word} {d : Nat}, P s → s.place a = .device d → DeviceCallsOnly s t → P t)
    (poke : ∀ {s : State} {a : Word} (v : Word), P s → P (s.poke a v))
    (registers : ∀ {s : State} (v : Word) (r : TickResult), P s → P { s with regZero := v, result := r }) :
    Kept P fun _ => True where
  loadOk {s t a v} hs h := by
    refine ⟨?_, trivial⟩
    rcases load_cases s a with ⟨_, _, hl⟩ | ⟨_, _, hd, _, hl⟩ | ⟨_, _, _, _, hl⟩ | ⟨_, hl⟩ | ⟨_, hl⟩ <;> cases hl.symm.trans h
    · exact hs
    · exact device hs hd (load_ok_only h)
  loadErr {s t a e} hs h := by
    rcases load_cases s a with ⟨_, _, hl⟩ | ⟨_, _, _, _, hl⟩ | ⟨_, _, hd, _, hl⟩ | ⟨_, hl⟩ | ⟨_, hl⟩ <;> cases hl.symm.trans h
    · exact device hs hd (load_err_only h)
    · exact hs
  pushOk {s t a v} hs _ h := by
    rcases push_cases s a v with ⟨_, hp⟩ | ⟨_, _, hd, _, hp⟩ | ⟨_, _, _, _, hp⟩ | ⟨_, hp⟩ | ⟨_, hp⟩ <;> cases hp.symm.trans h
    · exact poke v hs
    · exact device hs hd (recordCall_only ..)
  pushErr {s t a v e} hs h := by
    rcases push_cases s a v with ⟨_, hp⟩ | ⟨_, _, _, _, hp⟩ | ⟨_, _, hd, _, hp⟩ | ⟨_, hp⟩ | ⟨_, hp⟩ <;> cases hp.symm.trans h
    · exact device hs hd (push_err_only h)
    · exact hs
  diagnostic {s t} hs h := by
    rcases diagnosticWrite_cases s with ⟨_, hw⟩ | ⟨_, _, hd, hw, only⟩ | ⟨_, hw⟩ | ⟨_, hw⟩ <;> cases hw.symm.trans h
    · exact poke _ hs
    · exact device hs hd only
  advance {s} hs := registers (addW s.cfg.width s.regZero stride) .ok hs
  escalate {s e} hs := registers s.regZero (.err e) hs
  adjust {s v} hs := registers (addW s.cfg.width s.regZero v) s.result hs
  arithmetic _ _ _ := ⟨trivial, trivial, trivial⟩
  quotient _ _ := trivial

/-! ### The canonical form under a tick -/

/-- A write to a static address is inside the bounds of the array behind it: every cell is whole, since the instruction segment
is a multiple of 3 (R7). -/
theorem Memory.wf_poke {s : State} (hc : s.cfg.wf = true) (h : Memory.wf s = true) (a v : Word) :
    Memory.wf (s.poke a v) = true := by
  unfold State.poke
  cases hp : s.place a with
  | register => exact (Memory.wf_congr rfl rfl rfl).trans h
  | data i => exact Memory.wf_setData h (place_data hp).2 v
  | instruction i =>
    obtain ⟨_, _, hmod, _⟩ := (Config.wf_iff _).mp hc
    have hi := (place_instruction hp).2
    have hcell : i / 3 < nCells s.cfg := by
      unfold nCells
      omega
    exact Memory.wf_cacheSet h hcell v
  | boundary => exact h
  | device d => exact h
  | unpopulated => exact h

theorem memory_canonical_kept : Kept (fun s => s.cfg.wf = true ∧ Memory.wf s = true) fun _ => True :=
  .of_updates
    (fun ⟨hc, hm⟩ _ only => ⟨only.cfg ▸ hc, (Memory.wf_congr only.cfg only.data only.cells).trans hm⟩)
    (fun {s a} v ⟨hc, hm⟩ => ⟨(poke_cfg s a v).symm ▸ hc, Memory.wf_poke hc hm a v⟩)
    (fun _ _ ⟨hc, hm⟩ => ⟨hc, (Memory.wf_congr rfl rfl rfl).trans hm⟩)

/-- Settles O57: device calls and `reg_zero` leave the arrays alone, and a static write stays inside its array
(`Memory.wf_poke`). -/
theorem stepKeepsMemoryCanonical : Obligations.StepKeepsMemoryCanonical :=
  fun _ _ hc hm hstep => memory_canonical_kept.step ⟨hc, hm⟩ hstep

/-! ### The configuration, the devices and the record of calls under a tick -/

/-- What holds between the state before a tick and any state within it or after it. -/
theorem construction_kept (s : State) :
    Kept (fun t => t.cfg = s.cfg ∧ t.devices = s.devices ∧ s.events <+: t.events) fun _ => True :=
  .of_updates
    (fun ⟨hc, hd, he⟩ _ only => ⟨only.cfg.trans hc, only.devices.trans hd, he.trans only.events⟩)
    (fun v h => by rwa [poke_cfg, poke_devices, poke_events])
    (fun _ _ h => h)

/-- Settles O59: of the three kinds of update only a device call touches any of the three, and it appends to the record. -/
theorem stepKeepsConfigurationAndDevices : Obligations.StepKeepsConfigurationAndDevices :=
  fun s _ hstep => (construction_kept s).step ⟨rfl, rfl, (DeviceCallsOnly.refl s).events⟩ hstep

theorem place_ne_device {s : State} (h : s.devices = []) (a : Word) (d : Nat) : s.place a ≠ .device d := by
  unfold State.place
  rw [h]
  split_ifs <;> simp [firstClaim]

theorem noDeviceCall_kept {s : State} (h : s.devices = []) : Kept (NoDeviceCall s) fun _ => True :=
  .of_updates
    (fun ⟨_, hd, _⟩ hp _ => absurd hp (place_ne_device (hd.trans h) _ _))
    (fun v hs => by
      unfold NoDeviceCall
      rwa [poke_cfg, poke_devices, poke_script, poke_draws, poke_events])
    (fun _ _ hs => hs)

/-- Settles O60: without devices no address is a device's (`place_ne_device`), and the other updates draw nothing. -/
theorem withoutDevicesNothingIsDrawn : Obligations.WithoutDevicesNothingIsDrawn :=
  fun _ _ hd hstep => (noDeviceCall_kept hd).step ⟨rfl, rfl, rfl, rfl, rfl⟩ hstep

/-! ### The state that construction gives -/

/-- The cells built are numbered from `k` on, so nothing is listed below. -/
theorem sparseGet_buildCells_below (w : Width) {i k : Nat} (h : i < k) (n : Nat) (bytes : List Byte) :
    sparseGet unlistedCell (buildCells w n k bytes) i = unlistedCell := by
  rcases sparseGet_mem unlistedCell (buildCells w n k bytes) i with hu | hm
  · exact hu
  · exact absurd (mem_buildCells hm).1 (Nat.not_le_of_lt h)

/-- Cell `k + j` of the cells built is parsed from the bytes `j` cells on, listed or not (R33, R65). -/
theorem sparseGet_buildCells (w : Width) {n j : Nat} (hj : j < n) (k : Nat) (bytes : List Byte) :
    sparseGet unlistedCell (buildCells w n k bytes) (k + j) = parseCell w (bytes.drop (j * cellBytes w)) := by
  induction n generalizing j k bytes with
  | zero => exact absurd hj (Nat.not_lt_zero j)
  | succ n ih =>
    rw [buildCells_succ]
    cases j with
    | zero =>
      rw [Nat.zero_mul, List.drop_zero, Nat.add_zero k]
      split
      · next hc => rw [hc, sparseGet_buildCells_below w (Nat.lt_succ_self k)]
      · rw [sparseGet, if_pos rfl]
    | succ j =>
      have hindex : k + (j + 1) = k + 1 + j := by omega
      have hbytes : bytes.drop ((j + 1) * cellBytes w) = (bytes.drop (cellBytes w)).drop (j * cellBytes w) := by
        rw [List.drop_drop, Nat.add_one_mul, Nat.add_comm]
      have hk : k ≠ k + 1 + j := by omega
      rw [hindex, hbytes]
      split
      · exact ih (Nat.lt_of_succ_lt_succ hj) ..
      · rw [sparseGet, if_neg hk]
        exact ih (Nat.lt_of_succ_lt_succ hj) ..

/-- Every cell of a constructed machine is the image's (R33). -/
theorem cell_of_construct {c : Config} {image : List Byte} {devices : List Device} {script : List DeviceAnswer}
    {draws k : Nat} {s : State} (h : construct c image devices script draws = some s) (hk : k < nCells c) :
    s.cell k = parseCell c.width (image.drop (k * cellBytes c.width)) := by
  obtain ⟨_, rfl⟩ := construct_eq_some h
  have hcell := sparseGet_buildCells c.width hk 0 image
  rwa [Nat.zero_add] at hcell

theorem parseCell_op_drop (w : Width) (bytes : List Byte) (n : Nat) : (parseCell w (bytes.drop n)).op = bytes.getD n 0 := by
  simp [parseCell, List.headD_eq_head?_getD, List.getD_eq_getElem?_getD]

/-- A big-endian operand is kept whole: it is a Word of the profile, and so has at most 64 bits. -/
theorem ofNat_bigEndian_toNat (w : Width) (bytes : List Byte) :
    (BitVec.ofNat 64 (bigEndian (bytes.take w.bytes))).toNat = bigEndian (bytes.take w.bytes) :=
  (BitVec.toNat_ofNat ..).trans (Nat.mod_eq_of_lt ((bigEndian_take_lt w bytes).trans_le w.pow_le))

theorem parseCell_a1_drop (w : Width) (bytes : List Byte) (n : Nat) :
    (parseCell w (bytes.drop n)).a1.toNat = bigEndian ((bytes.drop (n + 1)).take w.bytes) := by
  rw [← List.drop_drop]
  exact ofNat_bigEndian_toNat ..

theorem parseCell_a2_drop (w : Width) (bytes : List Byte) (n : Nat) :
    (parseCell w (bytes.drop n)).a2.toNat = bigEndian ((bytes.drop (n + 1 + w.bytes)).take w.bytes) := by
  rw [Nat.add_assoc, ← List.drop_drop]
  exact ofNat_bigEndian_toNat ..

/-- Settles O9: the fields are those `construct` sets, and the cells those built from the image (`sparseGet_buildCells`). -/
theorem constructedStateIsAsTheImageSays : Obligations.ConstructedStateIsAsTheImageSays := by
  intro c image devices script draws s h
  have hcells := fun k (hk : k < nCells c) => cell_of_construct h hk
  obtain ⟨_, rfl⟩ := construct_eq_some h
  refine ⟨rfl, fun _ => rfl, fun k hk => ?_, rfl, rfl⟩
  rw [hcells k hk]
  exact ⟨parseCell_op_drop .., parseCell_a1_drop .., parseCell_a2_drop ..⟩

/-! ### One device call -/

theorem nextAnswer_of_script {s : State} {answer : DeviceAnswer} {rest : List DeviceAnswer} (h : s.script = answer :: rest)
    (d : Nat) (call : DeviceCall) : s.nextAnswer d call = wrapAnswer s.cfg.width answer := by
  rw [State.nextAnswer, h]

theorem nextAnswer_of_oracle {s : State} (h : s.script = []) (d : Nat) (call : DeviceCall) :
    s.nextAnswer d call = wrapAnswer s.cfg.width (Config.deviceAnswer s.draws s.events d call) := by
  rw [State.nextAnswer, h]

theorem recordCall_sameCore (s : State) (d : Nat) (call : DeviceCall) (answer : DeviceAnswer) :
    SameCore s (s.recordCall d call answer) := ⟨rfl, rfl, rfl, rfl, rfl⟩

section DeviceCall

variable {s : State} {a : Word} {d : Nat} {answer : DeviceAnswer}

/-- A load that a device answers does what R42 and R49 say of that answer, and records the call. -/
theorem loadAnswered (hp : s.place a = .device d) (hn : s.nextAnswer d (.load a) = wrapAnswer s.cfg.width answer) :
    LoadAnswered s d a answer s.script.tail := by
  refine ⟨_, recordCall_sameCore s d (.load a) (wrapAnswer s.cfg.width answer), rfl, rfl, ?_⟩
  rw [State.load, hp]
  dsimp only
  rw [hn]
  cases answer with
  | ok x => exact ⟨rfl, rfl⟩
  | failed x => exact ⟨rfl, rfl⟩

/-- A push that a device answers does what R43 and R49 say of that answer, and records the call. -/
theorem pushAnswered {v : Word} (hp : s.place a = .device d)
    (hn : s.nextAnswer d (.push a v) = wrapAnswer s.cfg.width answer) :
    PushAnswered s d a v answer s.script.tail := by
  refine ⟨_, recordCall_sameCore s d (.push a v) (wrapAnswer s.cfg.width answer), rfl, rfl, ?_⟩
  rw [State.push, hp]
  dsimp only
  rw [hn]
  cases answer with
  | ok x => exact ⟨rfl, rfl⟩
  | failed x => exact ⟨rfl, rfl⟩

end DeviceCall

/-- Settles O21: the next answer is the script's first or the oracle's, and `loadAnswered` and `pushAnswered` hold of either. -/
theorem deviceCallsTakeTheNextAnswer : Obligations.DeviceCallsTakeTheNextAnswer := by
  intro s a v d hp
  constructor
  · intro answer rest hs
    have htail : s.script.tail = rest := by rw [hs, List.tail_cons]
    exact htail ▸ ⟨loadAnswered hp (nextAnswer_of_script hs ..), pushAnswered hp (nextAnswer_of_script hs ..)⟩
  · intro hs
    have htail : s.script.tail = [] := by rw [hs, List.tail_nil]
    exact htail ▸ ⟨loadAnswered hp (nextAnswer_of_oracle hs ..), pushAnswered hp (nextAnswer_of_oracle hs ..)⟩

end Sys2Proof.Machine
end

section
/-! Proofs about memory as 20_memory.md gives it: the bytes of a cell, construction from an image, the regions of the address
space and the bus, and what the instructions make of their bus calls. -/

namespace Sys2Proof

/-! ### A cell as words -/

/-- The class, flags and tag of an encoded opcode byte decode to the instruction's own (R72, R78). -/
theorem decode_encode (i : Instr) : decode (zextByte (encode i).op) (encode i).a1 (encode i).a2 = i := by
  cases i <;>
    simp only [encode, decode, narrow8_zextByte, classOf_opcodeByte, flagsOf_opcodeByte, speedOf_opcodeByte, Instr.ofClass]

theorem encode_ofClass {k : OpClass} (h : k ≠ .noOp) (f : Flags) (sp : Speed) (a1 a2 : Word) :
    encode (Instr.ofClass k f sp a1 a2) = ⟨opcodeByte k f sp, a1, a2⟩ := by
  cases k with
  | noOp => exact absurd rfl h
  | _ => rfl

/-- Every bit of the opcode byte is in the instruction decoded, unless that is a NoOp (R72, R80). -/
theorem encode_decode {w0 w1 w2 : Word} (h : decode w0 w1 w2 ≠ .nop) : encode (decode w0 w1 w2) = ⟨narrow8 w0, w1, w2⟩ := by
  have hk : classOf (narrow8 w0) ≠ .noOp := fun hk => h (by rw [decode, hk]; rfl)
  rw [decode, encode_ofClass hk, opcodeByte_fields]

theorem wf_iff_fits_encode (w : Width) (i : Instr) :
    i.wf w = true ↔ fits w (encode i).a1 = true ∧ fits w (encode i).a2 = true := by
  cases i with
  | nop => exact iff_of_true rfl ⟨fits_zero w, fits_zero w⟩
  | _ => exact Bool.and_eq_true_iff

/-! ### A cell as bytes -/

/-- The low `n` bytes do not see what is above them. -/
theorem toBytes_mul_add (n q v : Nat) : toBytes n (q * 256 ^ n + v) = toBytes n v := by
  induction n generalizing q with
  | zero => rfl
  | succ n ih =>
    have hq : q * 256 ^ (n + 1) + v = q * 256 * 256 ^ n + v := by ring
    have hpos : 0 < 256 ^ n := Nat.pow_pos (by decide)
    have hbyte : BitVec.ofNat 8 (q * 256 + v / 256 ^ n) = BitVec.ofNat 8 (v / 256 ^ n) := by
      apply BitVec.eq_of_toNat_eq
      simp only [BitVec.toNat_ofNat]
      omega
    rw [toBytes, toBytes, hq, ih, Nat.add_comm, Nat.add_mul_div_right _ _ hpos, Nat.add_comm, hbyte]

/-- The bytes of a big-endian value are the bytes it was read from (R64, R65). -/
theorem toBytes_bigEndian (bs : List Byte) : toBytes bs.length (bigEndian bs) = bs := by
  induction bs with
  | nil => rfl
  | cons b bs ih =>
    have hdiv : (b.toNat * 256 ^ bs.length + bigEndian bs) / 256 ^ bs.length = b.toNat := by
      rw [Nat.add_comm, Nat.add_mul_div_right _ _ (Nat.pow_pos (by decide)), Nat.div_eq_of_lt (bigEndian_lt bs), Nat.zero_add]
    rw [List.length_cons, bigEndian_cons, toBytes, hdiv, BitVec.ofNat_toNat, BitVec.setWidth_eq, toBytes_mul_add, ih]

/-- A Word of the profile survives its `BYTE_SIZE` bytes. -/
theorem bigEndian_toBytes_of_fits {w : Width} {v : Word} (h : fits w v = true) :
    BitVec.ofNat 64 (bigEndian (toBytes w.bytes v.toNat)) = v := by
  have h256 : 256 ^ w.bytes = 2 ^ w.bits := by rw [← w.eight_mul_bytes, Nat.pow_mul]
  rw [bigEndian_toBytes, h256, Nat.mod_eq_of_lt ((fits_iff w v).mp h), BitVec.ofNat_toNat, BitVec.setWidth_eq]

theorem cellToBytes_length (w : Width) (c : CellFields) : (cellToBytes w c).length = cellBytes w := by
  simp only [cellToBytes, cellBytes, List.length_cons, List.length_append, toBytes_length]
  omega

/-- A cell's bytes parse to the cell, whatever follows them. -/
theorem parseCell_cellToBytes {w : Width} {c : CellFields} (h1 : fits w c.a1 = true) (h2 : fits w c.a2 = true)
    (rest : List Byte) : parseCell w (cellToBytes w c ++ rest) = c := by
  have ha1 : ((cellToBytes w c ++ rest).drop 1).take w.bytes = toBytes w.bytes c.a1.toNat := by
    simp [cellToBytes]
  have ha2 : ((cellToBytes w c ++ rest).drop (1 + w.bytes)).take w.bytes = toBytes w.bytes c.a2.toNat := by
    simp [cellToBytes, Nat.add_comm 1]
  rw [parseCell, ha1, ha2, bigEndian_toBytes_of_fits h1, bigEndian_toBytes_of_fits h2]
  rfl

theorem toBytes_ofNat_bigEndian {w : Width} {bytes : List Byte} (h : w.bytes ≤ bytes.length) :
    toBytes w.bytes (BitVec.ofNat 64 (bigEndian (bytes.take w.bytes))).toNat = bytes.take w.bytes := by
  have hbytes := toBytes_bigEndian (bytes.take w.bytes)
  rwa [List.length_take_of_le h, ← Machine.ofNat_bigEndian_toNat] at hbytes

/-- A whole cell parsed gives its bytes back. -/
theorem cellToBytes_parseCell {w : Width} {bytes : List Byte} (h : cellBytes w ≤ bytes.length) :
    cellToBytes w (parseCell w bytes) = bytes.take (cellBytes w) := by
  cases bytes with
  | nil => simp [cellBytes] at h
  | cons b bs =>
    have hcell : cellBytes w = w.bytes + w.bytes + 1 := by rw [cellBytes]; omega
    rw [hcell, List.length_cons] at h
    have h1 : w.bytes ≤ bs.length := by omega
    have h2 : w.bytes ≤ (bs.drop w.bytes).length := by rw [List.length_drop]; omega
    rw [cellToBytes, parseCell, Nat.add_comm 1, List.drop_succ_cons, List.drop_succ_cons, List.drop_zero,
      toBytes_ofNat_bigEndian h1, toBytes_ofNat_bigEndian h2, hcell, List.take_succ_cons, List.take_add]
    rfl

/-- Settles O4: the cell is parsed whole from its bytes (`parseCell_cellToBytes`), and its words decode (`decode_encode`). -/
theorem decodeOfEncodedBytes : Obligations.DecodeOfEncodedBytes := by
  intro w i rest hwf
  obtain ⟨h1, h2⟩ := (wf_iff_fits_encode w i).mp hwf
  have hlen : ¬(encodeBytes w i ++ rest).length < cellBytes w := by
    rw [List.length_append, encodeBytes, cellToBytes_length]
    omega
  have hdrop : (encodeBytes w i ++ rest).drop (cellBytes w) = rest := by
    rw [← cellToBytes_length w (encode i)]
    exact List.drop_left
  rw [decodeBytes, if_neg hlen, hdrop, encodeBytes]
  dsimp only
  rw [parseCell_cellToBytes h1 h2, decode_encode]

theorem decodeBytes_ok {w : Width} {bytes rest : List Byte} {i : Instr} (h : decodeBytes w bytes = .ok (i, rest)) :
    cellBytes w ≤ bytes.length ∧ rest = bytes.drop (cellBytes w) ∧
      i = decode (zextByte (parseCell w bytes).op) (parseCell w bytes).a1 (parseCell w bytes).a2 := by
  unfold decodeBytes at h
  split at h
  · cases h
  · next hlen =>
    cases h
    exact ⟨Nat.le_of_not_lt hlen, rfl, rfl⟩

/-- Settles O5: the words encode to the fields parsed (`encode_decode`), and those to the bytes (`cellToBytes_parseCell`). -/
theorem encodeOfDecodedBytes : Obligations.EncodeOfDecodedBytes := by
  intro w bytes rest i h hnop
  obtain ⟨hlen, rfl, rfl⟩ := decodeBytes_ok h
  rw [wf_iff_fits_encode, encodeBytes, encode_decode hnop, narrow8_zextByte]
  refine ⟨fits_parseCell w bytes, ?_⟩
  rw [cellToBytes_parseCell hlen, List.take_append_drop]

/-- Settles O7, by induction over the bytes: each byte after the first keeps its weight. -/
theorem bigEndianIsTheWeightedSum : Obligations.BigEndianIsTheWeightedSum := by
  intro bytes
  induction bytes with
  | nil => rfl
  | cons b bs ih =>
    rw [bigEndian_cons, ih, List.length_cons, List.range_succ_eq_map, List.map_cons, List.sum_cons, List.map_map]
    congr 1
    refine congrArg List.sum (List.map_congr_left fun j _ => ?_)
    simp [Nat.sub_sub, Nat.add_comm 1]

end Sys2Proof

namespace Sys2Proof.Machine

/-! ### Construction from an image -/

/-- A cell is parsed from its own bytes alone. -/
theorem parseCell_append {w : Width} {bytes : List Byte} (h : cellBytes w ≤ bytes.length) (extra : List Byte) :
    parseCell w (bytes ++ extra) = parseCell w bytes := by
  have hlen : 1 + 2 * w.bytes ≤ bytes.length := h
  have hop : (bytes ++ extra).headD 0 = bytes.headD 0 := by
    cases bytes with
    | nil => simp at hlen
    | cons b bs => rfl
  have hfield : ∀ n, n + w.bytes ≤ bytes.length →
      ((bytes ++ extra).drop n).take w.bytes = (bytes.drop n).take w.bytes := fun n hn => by
    rw [List.drop_append_of_le_length (by omega), List.take_append_of_le_length (by rw [List.length_drop]; omega)]
  rw [parseCell, hop, hfield 1 (by omega), hfield (1 + w.bytes) (by omega), parseCell]

theorem buildCells_append {w : Width} {n : Nat} (k : Nat) {bytes : List Byte} (h : n * cellBytes w ≤ bytes.length)
    (extra : List Byte) : buildCells w n k (bytes ++ extra) = buildCells w n k bytes := by
  induction n generalizing k bytes with
  | zero => rfl
  | succ n ih =>
    rw [Nat.add_one_mul] at h
    have hcell : cellBytes w ≤ bytes.length := by omega
    have hrest : n * cellBytes w ≤ (bytes.drop (cellBytes w)).length := by
      rw [List.length_drop]
      omega
    rw [buildCells_succ, buildCells_succ, parseCell_append hcell, List.drop_append_of_le_length hcell, ih (k + 1) hrest]

/-- Settles O11: the image has its `N_CELLS` cells before the bytes appended (`buildCells_append`), and both lengths reach
`IMAGE_MIN`. -/
theorem imageBytesPastTheMinimumAreIgnored : Obligations.ImageBytesPastTheMinimumAreIgnored := by
  intro c image extra devices script draws h
  have hlen : imageMin c ≤ (image ++ extra).length := by
    rw [List.length_append]
    omega
  have hok : constructible c (image ++ extra) devices = constructible c image devices := by
    simp only [constructible, h, hlen]
  rw [construct, construct, hok, buildCells_append 0 h]

/-! ### The regions of the address space -/

theorem place_of_data {s : State} {a : Word} (h1 : 1 ≤ a.toNat) (h2 : a.toNat ≤ s.cfg.dataSize) :
    s.place a = .data (a.toNat - 1) := by
  rw [State.place, if_neg (by omega), if_pos h2]

theorem place_of_instruction {s : State} {a : Word} (h1 : iBase s.cfg ≤ a.toNat) (h2 : a.toNat < aTop s.cfg) :
    s.place a = .instruction (a.toNat - iBase s.cfg) := by
  have hdata : s.cfg.dataSize < a.toNat := h1
  rw [State.place, if_neg (by omega), if_neg (by omega), if_pos h2]

theorem place_of_boundary {s : State} {a : Word} (h : a.toNat = aTop s.cfg) : s.place a = .boundary := by
  have hdata : s.cfg.dataSize < aTop s.cfg := by
    unfold aTop
    omega
  rw [State.place, if_neg (by omega), if_neg (by omega), if_neg (by omega), if_pos h]

/-- The place of the first device that claims an address, as the list library says it. -/
theorem firstClaim_eq_findIdx? (a : Word) (n : Nat) (ds : List Device) :
    firstClaim a n ds = (ds.findIdx? (claims · a)).map (n + ·) := by
  induction ds generalizing n with
  | nil => rfl
  | cons d ds ih =>
    rw [firstClaim, List.findIdx?_cons]
    split
    · rfl
    · rw [ih, Option.map_map]
      congr 1
      funext j
      simp only [Function.comp_apply]
      omega

/-- Past `A_TOP` an address is the first claiming device's, or nothing's (R48, R50). -/
theorem place_above {s : State} {a : Word} (h : aTop s.cfg < a.toNat) :
    s.place a = ((s.devices.findIdx? (claims · a)).elim .unpopulated .device) := by
  have hdata : s.cfg.dataSize < aTop s.cfg := by
    unfold aTop
    omega
  have hfirst : firstClaim a 0 s.devices = s.devices.findIdx? (claims · a) := by
    simp [firstClaim_eq_findIdx?]
  rw [State.place, if_neg (by omega), if_neg (by omega), if_neg (by omega), if_neg (by omega), hfirst]
  cases s.devices.findIdx? (claims · a) <;> rfl

theorem claims_iff (d : Device) (a : Word) : claims d a = true ↔ d.lo.toNat ≤ a.toNat ∧ a.toNat ≤ d.hi.toNat := by
  simp [claims]

/-- Settles O15, region by region. -/
theorem addressSpacePartition : Obligations.AddressSpacePartition := by
  intro s a
  refine ⟨fun h => ?_, fun ⟨h1, h2⟩ => place_of_data h1 h2, fun ⟨h1, h2⟩ => ?_, fun h => place_of_boundary h, fun h => ?_⟩
  · exact (place_register_iff s a).mpr (BitVec.eq_of_toNat_eq h)
  · refine place_of_instruction h1 ?_
    unfold aTop
    omega
  · rw [place_above h]
    cases s.devices.findIdx? (claims · a) with
    | none => exact .inl rfl
    | some d => exact .inr ⟨d, rfl⟩

/-- Settles O16: the registration order is the order of the list (`place_above`). -/
theorem firstDeviceInOrderClaims : Obligations.FirstDeviceInOrderClaims := by
  intro s a h
  rw [place_above h]
  constructor
  · intro n
    trans s.devices.findIdx? (claims · a) = some n
    · cases s.devices.findIdx? (claims · a) <;> simp
    rw [List.findIdx?_eq_some_iff_getElem]
    constructor
    · rintro ⟨hn, hc, hfirst⟩
      obtain ⟨hlo, hhi⟩ := (claims_iff ..).mp hc
      refine ⟨_, List.getElem?_eq_getElem hn, hlo, hhi, fun m e hm he hin => ?_⟩
      obtain ⟨_, rfl⟩ := List.getElem?_eq_some_iff.mp he
      exact hfirst m hm ((claims_iff ..).mpr hin)
    · rintro ⟨d, hd, hlo, hhi, hfirst⟩
      obtain ⟨hn, rfl⟩ := List.getElem?_eq_some_iff.mp hd
      exact ⟨hn, (claims_iff ..).mpr ⟨hlo, hhi⟩, fun m hm hc =>
        hfirst m _ hm (List.getElem?_eq_getElem (hm.trans hn)) ((claims_iff ..).mp hc)⟩
  · trans s.devices.findIdx? (claims · a) = none
    · cases s.devices.findIdx? (claims · a) <;> simp
    simp only [List.findIdx?_eq_none_iff, ← claims_iff, Bool.not_eq_true]

/-! ### The bus -/

theorem load_boundary {s : State} {a : Word} (h : s.place a = .boundary) : s.load a = .boundary := by
  rw [State.load, h]

theorem push_boundary {s : State} {a : Word} (h : s.place a = .boundary) (v : Word) : s.push a v = .boundary := by
  rw [State.push, h]

theorem load_unpopulated {s : State} {a : Word} (h : s.place a = .unpopulated) :
    s.load a = .err (.addressNotPopulated a) s := by
  rw [State.load, h]

theorem push_unpopulated {s : State} {a : Word} (h : s.place a = .unpopulated) (v : Word) :
    s.push a v = .err (.addressNotPopulated a) s := by
  rw [State.push, h]

/-- Settles O22: the fetch begins with the load of `reg_zero`. -/
theorem boundaryAddressFaults : Obligations.BoundaryAddressFaults := by
  intro s a v h
  have hp := place_of_boundary h
  refine ⟨load_boundary hp, push_boundary hp v, fun hr => ?_⟩
  rw [step, State.fetch, hr, load_boundary hp]

/-- Read after write in the static regions. -/
theorem push_then_load {s : State} {a : Word} (h : s.isStatic a = true) (v : Word) :
    s.push a v = .ok () (s.poke a v) ∧ (s.poke a v).load a = .ok (s.landed a v) (s.poke a v) := by
  refine ⟨push_static h v, load_static ?_⟩
  rw [peek_poke h, if_pos rfl]

theorem landed_register {s : State} {a : Word} (h : s.place a = .register) (v : Word) : s.landed a v = v := by
  rw [State.landed, h]
  rfl

theorem landed_data {s : State} {a : Word} {i : Nat} (h : s.place a = .data i) (v : Word) : s.landed a v = v := by
  rw [State.landed, h]
  rfl

theorem zextByte_narrow8 (v : Word) : zextByte (narrow8 v) = BitVec.ofNat 64 (v.toNat % 256) := by
  apply BitVec.eq_of_toNat_eq
  rw [zextByte_toNat, narrow8_toNat, BitVec.toNat_ofNat]
  omega

theorem landed_instruction {s : State} {a : Word} {i : Nat} (h : s.place a = .instruction i) (v : Word) :
    s.landed a v = if i % 3 = 0 then BitVec.ofNat 64 (v.toNat % 256) else v := by
  rw [State.landed, h, ← zextByte_narrow8]
  rfl

theorem isStatic_register {s : State} {a : Word} (h : s.place a = .register) : s.isStatic a = true :=
  (isStatic_iff s a).mpr (.inl h)

theorem isStatic_data {s : State} {a : Word} {i : Nat} (h : s.place a = .data i) : s.isStatic a = true :=
  (isStatic_iff s a).mpr (.inr (.inl ⟨i, h⟩))

theorem isStatic_instruction {s : State} {a : Word} {i : Nat} (h : s.place a = .instruction i) : s.isStatic a = true :=
  (isStatic_iff s a).mpr (.inr (.inr ⟨i, h⟩))

/-- Settles O17: the next load gives what landed (`push_then_load`), the Word itself but at field 0 of a cell. -/
theorem pushThenLoad : Obligations.PushThenLoad := by
  intro s a v
  constructor
  · intro h
    rcases Nat.eq_zero_or_pos a.toNat with h0 | h1
    · have hp : s.place a = .register := (place_register_iff s a).mpr (BitVec.eq_of_toNat_eq h0)
      exact ⟨_, landed_register hp v ▸ push_then_load (isStatic_register hp) v⟩
    · have hp := place_of_data h1 h
      exact ⟨_, landed_data hp v ▸ push_then_load (isStatic_data hp) v⟩
  · rintro ⟨h1, h2⟩
    have hp : s.place a = .instruction (a.toNat - (s.cfg.dataSize + 1)) := by
      refine place_of_instruction h1 ?_
      unfold aTop
      omega
    exact ⟨_, landed_instruction hp v ▸ push_then_load (isStatic_instruction hp) v⟩

/-- Settles O18: a data address is a data word's place, and what lands there is the Word pushed. -/
theorem dataAddressesHoldWholeWords : Obligations.DataAddressesHoldWholeWords := by
  intro s a v h1 h2
  have hp := place_of_data h1 h2
  obtain ⟨hpush, hload⟩ := push_then_load (isStatic_data hp) v
  rw [landed_data hp] at hload
  refine ⟨load_static ?_, _, hpush, ?_, hload⟩
  · rw [State.peek, hp]
    rfl
  · rw [State.poke, hp]
    exact (dataWord_setData ..).trans (if_pos rfl)

theorem poke_noDeviceCall (s : State) (a v : Word) : NoDeviceCall s (s.poke a v) :=
  ⟨poke_cfg .., poke_devices .., poke_script .., poke_draws .., poke_events ..⟩

/-- Settles O19: the push is the write `poke`, and `peek_poke` says what each address reads after it. -/
theorem pushChangesOneAddress : Obligations.PushChangesOneAddress := by
  intro s a v h
  refine ⟨_, push_static h v, poke_result .., poke_noDeviceCall s a v, fun b hb => ?_⟩
  rw [peek_poke h, if_neg hb]

theorem DeviceCallsOnly.sameCore {s t : State} (h : DeviceCallsOnly s t) : SameCore s t :=
  ⟨h.cfg, h.devices, h.regZero, h.data, h.cells⟩

/-- Settles O20: each of the four is device calls at most. -/
theorem loadsAndFailedPushesWriteNothing : Obligations.LoadsAndFailedPushesWriteNothing := by
  intro s t a v e
  refine ⟨fun h => (load_ok_only h).sameCore, fun h => (load_err_only h).sameCore,
    fun h => (push_err_only h).sameCore, fun ⟨d, hd⟩ h => ?_⟩
  rcases push_ok_cases h with ⟨hs, _⟩ | only
  · rw [State.isStatic, hd] at hs
    cases hs
  · exact only.sameCore

/-! ### The addresses of a cell -/

section CellAddress

variable {s : State} {k : Nat} {p d : Word} (hwf : s.cfg.wf = true) (hk : k < nCells s.cfg)
  (hp : p.toNat = s.cfg.dataSize + 1 + 3 * k) (hd : d.toNat < 3)

include hwf hk hp hd

/-- The three addresses of a cell are below `A_TOP`, so none wraps (R7). -/
theorem cell_address_toNat :
    (p + d).toNat = iBase s.cfg + (3 * k + d.toNat) ∧ (p + d).toNat < aTop s.cfg ∧ (p + d).toNat < 2 ^ s.cfg.width.bits := by
  obtain ⟨_, _, hmod, htop, _⟩ := (Config.wf_iff _).mp hwf
  have hpow := s.cfg.width.pow_le
  have hpos := s.cfg.width.pow_pos
  simp only [nCells] at hk
  simp only [BitVec.toNat_add, iBase, aTop]
  omega

theorem place_cell_address : s.place (p + d) = .instruction (3 * k + d.toNat) := by
  obtain ⟨hnat, htop, _⟩ := cell_address_toNat hwf hk hp hd
  rw [place_of_instruction (by omega) htop, hnat, Nat.add_sub_cancel_left]

theorem addW_cell_address : addW s.cfg.width p d = p + d := by
  obtain ⟨_, _, hlt⟩ := cell_address_toNat hwf hk hp hd
  exact wrap_of_fits ((fits_iff ..).mpr hlt)

end CellAddress

/-! ### The fetch of a cell that was written -/

theorem isStatic_poke (s : State) (a v b : Word) : (s.poke a v).isStatic b = s.isStatic b := by
  rw [State.isStatic, place_congr (poke_cfg ..) (poke_devices ..), State.isStatic]

theorem landed_poke (s : State) (a v b x : Word) : (s.poke a v).landed b x = s.landed b x := by
  rw [State.landed, place_congr (poke_cfg ..) (poke_devices ..), State.landed]

/-- A fetch from the static regions reads its three words and leaves the state as it is (R91). -/
theorem fetch_static {s : State} {w0 w1 w2 : Word} (h0 : s.peek s.regZero = some w0)
    (h1 : s.peek (addW s.cfg.width s.regZero 1) = some w1) (h2 : s.peek (addW s.cfg.width s.regZero 2) = some w2) :
    s.fetch = .ok ⟨w0, w1, w2⟩ s := by
  simp only [State.fetch, load_static h0, load_static h1, load_static h2]

theorem ne_zero_of_place_instruction {s : State} {a : Word} {i : Nat} (h : s.place a = .instruction i) : a ≠ 0 := by
  rintro rfl
  exact nomatch (place_zero s).symm.trans h

theorem peek_setRegZero (s : State) (v : Word) {b : Word} (h : b ≠ 0) : State.peek { s with regZero := v } b = s.peek b :=
  peek_congr (s := s) (t := { s with regZero := v }) rfl rfl rfl rfl h

/-- A fetch with `reg_zero` at a cell reads the cell's three addresses. -/
theorem fetch_at_cell {s : State} {k : Nat} {p w0 w1 w2 : Word} (hwf : s.cfg.wf = true) (hk : k < nCells s.cfg)
    (hp : p.toNat = s.cfg.dataSize + 1 + 3 * k) (h0 : s.peek p = some w0) (h1 : s.peek (p + 1) = some w1)
    (h2 : s.peek (p + 2) = some w2) :
    State.fetch { s with regZero := p } = .ok ⟨w0, w1, w2⟩ { s with regZero := p } := by
  have read : ∀ (d w : Word), d.toNat < 3 → s.peek (p + d) = some w → State.peek { s with regZero := p } (p + d) = some w :=
    fun d w hd h => (peek_setRegZero s p (ne_zero_of_place_instruction (place_cell_address hwf hk hp hd))).trans h
  apply fetch_static
  · simpa using read 0 w0 (by decide) (by simpa using h0)
  · rw [addW_cell_address hwf hk hp (by decide)]
    exact read 1 w1 (by decide) h1
  · rw [addW_cell_address hwf hk hp (by decide)]
    exact read 2 w2 (by decide) h2

/-- What three writes to different static addresses leave there, whatever `reg_zero` then is. -/
theorem peek_poke_three {s : State} {a b c : Word} (ha : s.isStatic a = true) (hb : s.isStatic b = true)
    (hc : s.isStatic c = true) (hab : a ≠ b) (hac : a ≠ c) (hbc : b ≠ c) (x y z : Word) :
    (((s.poke a x).poke b y).poke c z).peek a = some (s.landed a x) ∧
    (((s.poke a x).poke b y).poke c z).peek b = some (s.landed b y) ∧
    (((s.poke a x).poke b y).poke c z).peek c = some (s.landed c z) := by
  have hb' : (s.poke a x).isStatic b = true := by rwa [isStatic_poke]
  have hc' : ((s.poke a x).poke b y).isStatic c = true := by rwa [isStatic_poke, isStatic_poke]
  simp [peek_poke, ha, hb', hc', hab, hac, hbc, landed_poke]

/-- Settles O28: the cell's three addresses are static and do not wrap, so the pushes are writes and the fetch reads what landed
(`peek_poke_three`). -/
theorem fetchSeesEarlierWrites : Obligations.FetchSeesEarlierWrites := by
  intro s k p w0 w1 w2 hwf hk hp
  have f0 : s.place p = .instruction (3 * k) := by
    simpa using place_cell_address hwf hk hp (d := 0) (by decide)
  have f1 : s.place (p + 1) = .instruction (3 * k + 1) := place_cell_address hwf hk hp (by decide)
  have f2 : s.place (p + 2) = .instruction (3 * k + 2) := place_cell_address hwf hk hp (by decide)
  have l0 := landed_instruction f0 w0
  have l1 := landed_instruction f1 w1
  have l2 := landed_instruction f2 w2
  rw [if_pos (by omega)] at l0
  rw [if_neg (by omega)] at l1 l2
  have s0 := isStatic_instruction f0
  have s1 := isStatic_instruction f1
  have s2 := isStatic_instruction f2
  obtain ⟨r0, r1, r2⟩ := peek_poke_three s0 s1 s2 (by simp) (by simp) (by simp) w0 w1 w2
  refine ⟨_, _, _, push_static s0 w0, push_static (by rwa [isStatic_poke]) w1,
    push_static (by rwa [isStatic_poke, isStatic_poke]) w2, ?_⟩
  have hcfg : (((s.poke p w0).poke (p + 1) w1).poke (p + 2) w2).cfg = s.cfg := by rw [poke_cfg, poke_cfg, poke_cfg]
  rw [l0] at r0
  rw [l1] at r1
  rw [l2] at r2
  exact fetch_at_cell (hcfg ▸ hwf) (hcfg ▸ hk) (hcfg ▸ hp) r0 r1 r2

/-! ### The image read back through the bus -/

/-- The fields of the cell `n` bytes into an image, as R68 counts them. -/
theorem fieldGet_parseCell_drop (w : Width) (image : List Byte) (n : Nat) {f : Nat} (hf : f < 3) :
    fieldGet (parseCell w (image.drop n)) f =
      if f = 0 then zextByte (image.getD n 0)
      else BitVec.ofNat 64 (bigEndian ((image.drop (n + 1 + (f - 1) * w.bytes)).take w.bytes)) := by
  match f, hf with
  | 0, _ => exact congrArg zextByte (parseCell_op_drop w image n)
  | 1, _ => simp [fieldGet, parseCell]
  | 2, _ => simp [fieldGet, parseCell, Nat.add_assoc]

/-- Settles O10: the address is offset `i` of the instruction segment, and its cell is the image's (`cell_of_construct`). -/
theorem constructionRoundTrip : Obligations.ConstructionRoundTrip := by
  intro c image devices script draws s i h hi
  obtain ⟨hok, hs⟩ := construct_eq_some h
  obtain ⟨hwf, _, _⟩ := (constructible_iff ..).mp hok
  obtain ⟨_, _, hmod, htop, _⟩ := (Config.wf_iff c).mp hwf
  have hcfg : s.cfg = c := by rw [hs]
  have hpow := c.width.pow_le
  have hnat : (BitVec.ofNat 64 (c.dataSize + 1 + i)).toNat = iBase c + i := by
    rw [BitVec.toNat_ofNat, iBase]
    omega
  have hplace : s.place (BitVec.ofNat 64 (c.dataSize + 1 + i)) = .instruction i := by
    rw [place_of_instruction, hcfg, hnat, Nat.add_sub_cancel_left]
    all_goals
      rw [hcfg, hnat]
      simp only [aTop, iBase]
      omega
  have hcell := cell_of_construct h (k := i / 3) (by unfold nCells; omega)
  rw [load_static (s := s) (v := s.cacheGet i) (by rw [State.peek, hplace]; rfl), State.cacheGet, hcell]
  exact congrArg (BusResult.ok · s) (fieldGet_parseCell_drop c.width image _ (Nat.mod_lt i (by decide)))

/-! ### An instruction's bus calls -/

/-- The instructions that begin with two loads are their two loads and what each makes of the Words. -/
theorem exec_eq_loadBoth {f : Flags} {sp : Speed} {a1 a2 : Word} {i : Instr}
    (hi : i ∈ [Instr.cmp f sp a1 a2, .add f sp a1 a2, .sub f sp a1 a2, .mul f sp a1 a2, .div f sp a1 a2]) :
    ∃ next, ∀ s, exec i s = loadBoth f a1 a2 s next := by
  simp only [List.mem_cons, List.not_mem_nil, or_false] at hi
  rcases hi with rfl | rfl | rfl | rfl | rfl <;> exact ⟨_, fun _ => rfl⟩

section Static

variable {s : State} {f : Flags} {a a1 a2 : Word}

theorem tryBus_load_static (h : s.isStatic a = true) (f : Flags) (next : Word → State → Host.Outcome State Fault Refusal) :
    ∃ v, s.peek a = some v ∧ tryBus f (s.load a) next = next v s := by
  obtain ⟨v, hv⟩ := (isStatic_iff_peek s a).mp h
  exact ⟨v, hv, by rw [load_static hv, tryBus]⟩

theorem loadBoth_static (h1 : s.isStatic a1 = true) (h2 : s.isStatic a2 = true) (f : Flags)
    (next : Word → Word → State → Host.Outcome State Fault Refusal) :
    ∃ v1 v2, s.peek a2 = some v2 ∧ loadBoth f a1 a2 s next = next v1 v2 s := by
  obtain ⟨v1, _, e1⟩ := tryBus_load_static h1 f fun v1 s1 => tryBus f (s1.load a2) fun v2 s2 => next v1 v2 s2
  obtain ⟨v2, hv2, e2⟩ := tryBus_load_static h2 f fun v2 s2 => next v1 v2 s2
  exact ⟨v1, v2, hv2, e1.trans e2⟩

theorem pushAndAdvance_static (h : s.isStatic a = true) (f : Flags) (v : Word) :
    pushAndAdvance f a v s = .next (s.poke a v).advance := by
  rw [pushAndAdvance, push_static h, tryBus]

/-- The tick returned `Ok(())` and called no device. -/
def Completes (s : State) (o : Host.Outcome State Fault Refusal) : Prop :=
  ∃ t, o = .next t ∧ t.result = .ok ∧ NoDeviceCall s t

theorem completes_advance (s : State) (v : Word) : Completes s (.next { s with regZero := v }.advance) :=
  ⟨_, rfl, rfl, rfl, rfl, rfl, rfl, rfl⟩

theorem completes_pushAndAdvance (h : s.isStatic a = true) (f : Flags) (v : Word) :
    Completes s (pushAndAdvance f a v s) :=
  ⟨_, pushAndAdvance_static h f v, rfl, poke_noDeviceCall s a v⟩

theorem completes_loadBoth (h1 : s.isStatic a1 = true) (h2 : s.isStatic a2 = true)
    {next : Word → Word → State → Host.Outcome State Fault Refusal}
    (hnext : ∀ v1 v2, s.peek a2 = some v2 → Completes s (next v1 v2 s)) : Completes s (loadBoth f a1 a2 s next) := by
  obtain ⟨v1, v2, hv2, he⟩ := loadBoth_static h1 h2 f next
  exact he ▸ hnext v1 v2 hv2

theorem completes_arithmetic (h1 : s.isStatic a1 = true) (h2 : s.isStatic a2 = true)
    (op : Width → Word → Word → Word) (f : Flags) : Completes s (arithmetic op f a1 a2 s) :=
  completes_loadBoth h1 h2 fun _ _ _ => completes_pushAndAdvance h1 f _

end Static

/-- Settles O44: each load and push is of a static address, and DIV's test of its divisor passes. -/
theorem staticAccessesComplete : Obligations.StaticAccessesComplete := by
  intro s i hs hdiv
  change Completes s (exec i s)
  have first : ∀ {a : Word} {l : List Word}, i.accesses = a :: l → s.isStatic a = true :=
    fun hl => hs _ (hl ▸ List.mem_cons_self)
  have second : ∀ {a b : Word} {l : List Word}, i.accesses = a :: b :: l → s.isStatic b = true :=
    fun hl => hs _ (hl ▸ List.mem_cons_of_mem _ List.mem_cons_self)
  cases i with
  | nop => exact completes_advance s s.regZero
  | load f sp a1 a2 => exact completes_pushAndAdvance (first rfl) f a2
  | copy f sp a1 a2 =>
    obtain ⟨v, _, he⟩ := tryBus_load_static (first rfl) f fun v t => pushAndAdvance f a2 v t
    rw [exec, execCopy, he]
    exact completes_pushAndAdvance (second rfl) f v
  | cmp f sp a1 a2 => exact completes_loadBoth (first rfl) (second rfl) fun _ _ _ => completes_advance s _
  | add f sp a1 a2 => exact completes_arithmetic (first rfl) (second rfl) addW f
  | sub f sp a1 a2 => exact completes_arithmetic (first rfl) (second rfl) subW f
  | mul f sp a1 a2 => exact completes_arithmetic (first rfl) (second rfl) mulW f
  | div f sp a1 a2 =>
    refine completes_loadBoth (first rfl) (second rfl) fun v1 v2 hv2 => ?_
    have hne : v2 ≠ 0 := fun h0 => hdiv a2 rfl (h0 ▸ hv2)
    rw [if_neg hne]
    exact completes_pushAndAdvance (first rfl) f _

/-! ### The first access outside the static regions -/

/-- The first of some addresses that is in no static region. -/
def State.firstNonStatic (s : State) (l : List Word) : Option Word := l.find? fun b => !s.isStatic b

theorem firstNonStatic_cons (s : State) (a : Word) (l : List Word) :
    s.firstNonStatic (a :: l) = if s.isStatic a = true then s.firstNonStatic l else some a := by
  rw [State.firstNonStatic, List.find?_cons]
  cases s.isStatic a <;> rfl

theorem firstNonStatic_append {s : State} {before : List Word} {a : Word} (hb : ∀ b ∈ before, s.isStatic b = true)
    (ha : s.isStatic a = false) (after : List Word) : s.firstNonStatic (before ++ a :: after) = some a := by
  induction before with
  | nil => rw [List.nil_append, firstNonStatic_cons, ha]; rfl
  | cons b l ih =>
    rw [List.cons_append, firstNonStatic_cons, if_pos (hb b List.mem_cons_self)]
    exact ih fun b hm => hb b (List.mem_cons_of_mem _ hm)

/-- ADD, SUB, MUL and DIV push to the address of their first load, so the push is never the first to leave the static
regions. -/
theorem firstNonStatic_push_to_first (s : State) (a1 a2 : Word) :
    s.firstNonStatic [a1, a2, a1] = s.firstNonStatic [a1, a2] := by
  simp only [firstNonStatic_cons]
  split <;> rfl

/-- Every bus call of `a` in state `s` ends the instruction with the outcome `o`. -/
structure CallsEndIn (s : State) (f : Flags) (a : Word) (o : Host.Outcome State Fault Refusal) : Prop where
  load : ∀ next, tryBus f (s.load a) next = o
  push : ∀ v next, tryBus f (s.push a v) next = o

namespace CallsEndIn

variable {s : State} {f : Flags} {a a1 a2 : Word} {o : Host.Outcome State Fault Refusal}

theorem unpopulated (h : s.place a = .unpopulated) (f : Flags) :
    CallsEndIn s f a (takeError f (.addressNotPopulated a) s) where
  load _ := by rw [load_unpopulated h, tryBus]
  push _ _ := by rw [push_unpopulated h, tryBus]

theorem boundary (h : s.place a = .boundary) (f : Flags) : CallsEndIn s f a (.fault .boundaryAddress) where
  load _ := by rw [load_boundary h, tryBus]
  push _ _ := by rw [push_boundary h, tryBus]

theorem pushAndAdvance (h : CallsEndIn s f a o) (hfirst : s.firstNonStatic [a1] = some a) (v : Word) :
    Machine.pushAndAdvance f a1 v s = o := by
  obtain rfl : a = a1 := List.mem_singleton.mp (List.mem_of_find?_eq_some hfirst)
  exact h.push v _

/-- A load that comes first either ends the instruction, or is static and leaves the first failure to the accesses after it. -/
theorem tryBus_load (h : CallsEndIn s f a o) {l : List Word} (hfirst : s.firstNonStatic (a1 :: l) = some a)
    {next : Word → State → Host.Outcome State Fault Refusal}
    (hnext : ∀ v, s.firstNonStatic l = some a → next v s = o) : tryBus f (s.load a1) next = o := by
  rw [firstNonStatic_cons] at hfirst
  split at hfirst
  · next h1 =>
    obtain ⟨v, _, he⟩ := tryBus_load_static h1 f next
    exact he.trans (hnext v hfirst)
  · cases hfirst
    exact h.load next

theorem loadBoth (h : CallsEndIn s f a o) (hfirst : s.firstNonStatic [a1, a2] = some a)
    (next : Word → Word → State → Host.Outcome State Fault Refusal) : Machine.loadBoth f a1 a2 s next = o :=
  h.tryBus_load hfirst fun _ h2 => h.tryBus_load h2 fun _ hnone => nomatch hnone

/-- The first access outside the static regions ends the instruction as its bus calls say, whichever instruction it is. -/
theorem exec {i : Instr} (h : CallsEndIn s i.flags a o) (hfirst : s.firstNonStatic i.accesses = some a) :
    Machine.exec i s = o := by
  cases i with
  | nop => cases hfirst
  | load f sp a1 a2 => exact h.pushAndAdvance hfirst a2
  | copy f sp a1 a2 => exact h.tryBus_load hfirst fun v h2 => h.pushAndAdvance h2 v
  | cmp f sp a1 a2 => exact h.loadBoth hfirst _
  | add f sp a1 a2 => exact h.loadBoth ((firstNonStatic_push_to_first ..).symm.trans hfirst) _
  | sub f sp a1 a2 => exact h.loadBoth ((firstNonStatic_push_to_first ..).symm.trans hfirst) _
  | mul f sp a1 a2 => exact h.loadBoth ((firstNonStatic_push_to_first ..).symm.trans hfirst) _
  | div f sp a1 a2 => exact h.loadBoth ((firstNonStatic_push_to_first ..).symm.trans hfirst) _

end CallsEndIn

section FirstFailure

variable {s : State} {i : Instr} {before after : List Word} {a : Word} (hacc : i.accesses = before ++ a :: after)
  (hb : ∀ b ∈ before, s.isStatic b = true)

include hacc hb

/-- An access that nothing claims, after static ones, is the instruction's error (R50, R94). -/
theorem exec_unpopulated (h : s.place a = .unpopulated) :
    exec i s = takeError i.flags (.addressNotPopulated a) s := by
  refine (CallsEndIn.unpopulated h i.flags).exec ?_
  rw [hacc]
  exact firstNonStatic_append hb (by rw [State.isStatic, h, placeStatic]) after

/-- An access of `A_TOP`, after static ones, is the fault of R47. -/
theorem exec_boundary (h : s.place a = .boundary) : exec i s = .fault .boundaryAddress := by
  refine (CallsEndIn.boundary h i.flags).exec ?_
  rw [hacc]
  exact firstNonStatic_append hb (by rw [State.isStatic, h, placeStatic]) after

end FirstFailure

/-! ### The error policy -/

theorem errorPolicy_absorb {f : Flags} (h : f.ie = true ∨ (f.nh = true ∧ f.nd = true)) : errorPolicy f = .absorb := by
  unfold errorPolicy
  rcases h with h | ⟨h1, h2⟩
  · rw [if_pos h]
  · simp [h1, h2]

theorem errorPolicy_escalate {f : Flags} (hie : f.ie = false) (hnh : f.nh = false) : errorPolicy f = .escalate := by
  simp [errorPolicy, hie, hnh]

theorem errorPolicy_record_iff (f : Flags) : errorPolicy f = .record ↔ f.asksDiagnostic = true := by
  obtain ⟨ie, nh, nd⟩ := f
  cases ie <;> cases nh <;> cases nd <;> decide

theorem addW_eq_ofNat (w : Width) (a b : Word) : addW w a b = BitVec.ofNat 64 ((a.toNat + b.toNat) % 2 ^ w.bits) := by
  rw [← addW_toNat, BitVec.ofNat_toNat, BitVec.setWidth_eq]

theorem movesOnlyRegZero_advance (s : State) : MovesOnlyRegZero s s.advance (s.regZero.toNat + 3) := by
  refine ⟨rfl, ?_, rfl, rfl, rfl, rfl, rfl, rfl, rfl⟩
  exact addW_eq_ofNat s.cfg.width s.regZero stride

/-- Settles O49: the instruction is the taking of `AddressNotPopulated` (`exec_unpopulated`), and the flags choose. -/
theorem unpopulatedAccessIsAbsorbedOrEscalated : Obligations.UnpopulatedAccessIsAbsorbedOrEscalated := by
  intro s i before after a hacc hb hp
  rw [exec_unpopulated hacc hb hp, takeError]
  constructor
  · intro h
    rw [errorPolicy_absorb h]
    exact ⟨_, rfl, movesOnlyRegZero_advance s⟩
  · intro hie hnh
    rw [errorPolicy_escalate hie hnh]
    rfl

/-- Settles O54: a bus call that answers boundary ends the instruction, and `exec_boundary` says it of the addresses. -/
theorem boundaryAccessFaultsTheInstruction : Obligations.BoundaryAccessFaultsTheInstruction := by
  refine ⟨fun s s1 f sp a1 a2 v1 => ⟨fun h => ?_, fun h i hi => ?_, fun h1 => ⟨fun h2 => ?_, fun h2 i hi => ?_⟩⟩,
    fun s i before after a hacc hb ha => exec_boundary hacc hb (place_of_boundary ha)⟩
  · rw [exec, execLoad, pushAndAdvance, h, tryBus]
  · rcases List.mem_cons.mp hi with rfl | hi
    · rw [exec, execCopy, h, tryBus]
    · obtain ⟨next, he⟩ := exec_eq_loadBoth hi
      rw [he, loadBoth, h, tryBus]
  · rw [exec, execCopy, h1, tryBus, pushAndAdvance, h2, tryBus]
  · obtain ⟨next, he⟩ := exec_eq_loadBoth hi
    rw [he, loadBoth, h1, tryBus, h2, tryBus]

/-! ### The frame of an instruction -/

/-- The configuration and the devices are as they were, and so is what every address reads, but for 0 and those in `D`. -/
structure UnchangedOff (D : Word → Prop) (s t : State) : Prop where
  cfg : t.cfg = s.cfg
  devices : t.devices = s.devices
  peek : ∀ b : Word, b ≠ 0 → ¬D b → t.peek b = s.peek b

namespace UnchangedOff

variable {D : Word → Prop} {r s t : State} {f : Flags} {a a1 a2 : Word}

theorem refl (D : Word → Prop) (s : State) : UnchangedOff D s s := ⟨rfl, rfl, fun _ _ _ => rfl⟩

/-- What changes only `reg_zero` and the model's own fields changes what 0 reads alone. -/
theorem of_memory (h : UnchangedOff D r s) (hc : t.cfg = s.cfg) (hv : t.devices = s.devices) (hd : t.data = s.data)
    (hk : t.cells = s.cells) : UnchangedOff D r t :=
  ⟨hc.trans h.cfg, hv.trans h.devices, fun b h0 hb => (peek_congr hc hv hd hk h0).trans (h.peek b h0 hb)⟩

theorem deviceCalls (h : UnchangedOff D r s) (only : DeviceCallsOnly s t) : UnchangedOff D r t :=
  h.of_memory only.cfg only.devices only.data only.cells

theorem advance (h : UnchangedOff D r s) : UnchangedOff D r s.advance := h.of_memory rfl rfl rfl rfl

theorem poke (h : UnchangedOff D r s) (hs : s.isStatic a = true) (ha : D a) (v : Word) : UnchangedOff D r (s.poke a v) where
  cfg := (poke_cfg ..).trans h.cfg
  devices := (poke_devices ..).trans h.devices
  peek b h0 hb := by
    have hne : b ≠ a := fun he => hb (he ▸ ha)
    rw [peek_poke hs, if_neg hne, h.peek b h0 hb]

theorem diagnosticWrite (h : UnchangedOff D r s) (hD : D r.cfg.diagAddr) (hw : s.diagnosticWrite = .done t) :
    UnchangedOff D r t := by
  rcases diagnosticWrite_cases s with ⟨hs, he⟩ | ⟨_, _, _, he, only⟩ | ⟨_, he⟩ | ⟨_, he⟩ <;> cases he.symm.trans hw
  · exact h.poke hs (h.cfg ▸ hD) _
  · exact h.deviceCalls only

section Operations

variable (hdiag : f.asksDiagnostic = true → D r.cfg.diagAddr)

include hdiag

theorem takeError (h : UnchangedOff D r s) {e : CpuError} (ht : Machine.takeError f e s = .next t) : UnchangedOff D r t := by
  rcases takeError_cases f e s with ⟨_, he⟩ | ⟨_, he⟩ | ⟨hf, u, hu, he⟩ | ⟨_, _, he⟩ | ⟨_, _, he⟩ <;> cases he.symm.trans ht
  · exact h.advance
  · exact h.of_memory rfl rfl rfl rfl
  · exact (h.diagnosticWrite (hdiag ((errorPolicy_record_iff f).mp hf)) hu).advance

theorem tryBus_load (h : UnchangedOff D r s) {next : Word → State → Host.Outcome State Fault Refusal}
    (hnext : ∀ v u, UnchangedOff D r u → next v u = .next t → UnchangedOff D r t)
    (ht : tryBus f (s.load a) next = .next t) : UnchangedOff D r t := by
  unfold tryBus at ht
  split at ht
  · next v u hl => exact hnext v u (h.deviceCalls (load_ok_only hl)) ht
  · next e u hl => exact (h.deviceCalls (load_err_only hl)).takeError hdiag ht
  · cases ht

theorem pushAndAdvance (h : UnchangedOff D r s) (ha : D a) {v : Word} (ht : Machine.pushAndAdvance f a v s = .next t) :
    UnchangedOff D r t := by
  unfold Machine.pushAndAdvance tryBus at ht
  split at ht
  · next u hp =>
    cases ht
    rcases push_ok_cases hp with ⟨hs, rfl⟩ | only
    · exact (h.poke hs ha v).advance
    · exact (h.deviceCalls only).advance
  · next e u hp => exact (h.deviceCalls (push_err_only hp)).takeError hdiag ht
  · cases ht

theorem loadBoth (h : UnchangedOff D r s) {next : Word → Word → State → Host.Outcome State Fault Refusal}
    (hnext : ∀ v1 v2 u, UnchangedOff D r u → next v1 v2 u = .next t → UnchangedOff D r t)
    (ht : Machine.loadBoth f a1 a2 s next = .next t) : UnchangedOff D r t :=
  h.tryBus_load hdiag (fun v1 _ hu ht => hu.tryBus_load hdiag (fun v2 w hw ht => hnext v1 v2 w hw ht) ht) ht

theorem arithmetic (h : UnchangedOff D r s) (ha : D a1) {op : Width → Word → Word → Word}
    (ht : Machine.arithmetic op f a1 a2 s = .next t) : UnchangedOff D r t :=
  h.loadBoth hdiag (fun _ _ _ hu ht => hu.pushAndAdvance hdiag ha ht) ht

end Operations

/-- An instruction changes what reads at its destination and, where it asks for a diagnostic, at `DIAG_ADDR`. -/
theorem exec {i : Instr} (hdest : ∀ b, i.destination = some b → D b)
    (hdiag : i.flags.asksDiagnostic = true → D s.cfg.diagAddr) (ht : Machine.exec i s = .next t) : UnchangedOff D s t := by
  have h := refl D s
  cases i with
  | nop => cases ht; exact h.advance
  | load f sp a1 a2 => exact h.pushAndAdvance hdiag (hdest a1 rfl) ht
  | copy f sp a1 a2 => exact h.tryBus_load hdiag (fun v u hu ht => hu.pushAndAdvance hdiag (hdest a2 rfl) ht) ht
  | cmp f sp a1 a2 =>
    refine h.loadBoth hdiag (fun v1 v2 u hu ht => ?_) ht
    cases ht
    exact hu.of_memory rfl rfl rfl rfl
  | add f sp a1 a2 => exact h.arithmetic hdiag (hdest a1 rfl) ht
  | sub f sp a1 a2 => exact h.arithmetic hdiag (hdest a1 rfl) ht
  | mul f sp a1 a2 => exact h.arithmetic hdiag (hdest a1 rfl) ht
  | div f sp a1 a2 =>
    refine h.loadBoth hdiag (fun v1 v2 u hu ht => ?_) ht
    split at ht
    · cases ht
    · exact hu.pushAndAdvance hdiag (hdest a1 rfl) ht

end UnchangedOff

/-- Settles O55: `UnchangedOff` for the addresses named, which every shared operation keeps. -/
theorem frameOfEveryInstruction : Obligations.FrameOfEveryInstruction := by
  intro s t i h
  have frame : UnchangedOff (fun b => i.destination = some b ∨ (i.flags.asksDiagnostic = true ∧ b = s.cfg.diagAddr)) s t :=
    .exec (fun _ => .inl) (fun ha => .inr ⟨ha, rfl⟩) h
  exact ⟨frame.cfg, frame.devices, fun b h0 hdest hdiag => frame.peek b h0 (not_or.mpr ⟨hdest, hdiag⟩)⟩

end Sys2Proof.Machine
end

section
/-! Proofs about the encoding as 30_encoding.md gives it: the opcode byte and its table, the cells of written instructions, the
fetch and the step at a cell, and what the pseudo-instructions do. -/

namespace Sys2Proof

/-! ### The opcode byte as a number -/

theorem OpClass.code_lt (k : OpClass) : k.code < 8 := by cases k <;> decide

theorem Speed.code_lt (sp : Speed) : sp.code < 4 := by cases sp <;> decide

theorem Speed.code_injective {sp sp' : Speed} (h : sp.code = sp'.code) : sp = sp' := by
  revert h
  cases sp <;> cases sp' <;> decide

/-- The sum of R72 is below 256, so the opcode byte loses nothing of it. -/
theorem opcodeByte_toNat (k : OpClass) (f : Flags) (sp : Speed) :
    (opcodeByte k f sp).toNat = k.code * 32 + f.ie.toNat * 16 + f.nh.toNat * 8 + f.nd.toNat * 4 + sp.code := by
  have hk := k.code_lt
  have hie := f.ie.toNat_lt
  have hnh := f.nh.toNat_lt
  have hnd := f.nd.toNat_lt
  have hsp := sp.code_lt
  rw [opcodeByte, BitVec.toNat_ofNat]
  omega

/-- The speed tag is the byte modulo 4 (R77). -/
theorem speedOf_code (ob : Byte) : (speedOf ob).code = ob.toNat % 4 := by
  have hsum := opcodeByte_toNat (classOf ob) (flagsOf ob) (speedOf ob)
  have hsp := (speedOf ob).code_lt
  rw [opcodeByte_fields] at hsum
  omega

/-- A first word whose low byte is that of a class, flags and a tag decodes to the instruction of them (R76, R78). -/
theorem decode_of_narrow8 {w0 : Word} {k : OpClass} {f : Flags} {sp : Speed} (h : narrow8 w0 = opcodeByte k f sp)
    (w1 w2 : Word) : decode w0 w1 w2 = Instr.ofClass k f sp w1 w2 := by
  simp only [decode, h, classOf_opcodeByte, flagsOf_opcodeByte, speedOf_opcodeByte]

/-- Settles O1: the low 8 bits are those of the class's opcode byte (`opcodeByte_toNat`), whose fields decode as written. -/
theorem decodeReadsEveryField : Obligations.DecodeReadsEveryField := by
  intro w0 w1 w2 f sp low hlow
  have read : ∀ k : OpClass, w0.toNat % 256 = k.code * 32 + low → decode w0 w1 w2 = Instr.ofClass k f sp w1 w2 := by
    intro k h
    refine decode_of_narrow8 (BitVec.eq_of_toNat_eq ?_) w1 w2
    rw [narrow8_toNat, opcodeByte_toNat]
    omega
  exact ⟨read .noOp, read .load, read .copy, read .compare, read .add, read .sub, read .mul, read .div⟩

/-! ### The opcode table -/

/-- The mask of R73's rows leaves of an opcode byte its class. -/
theorem and_classMask (ob : Byte) : ob &&& 0xE0 = opcodeByte (classOf ob) .none .fast := by
  revert ob
  decide

theorem opcodeTable_mask : ∀ r ∈ opcodeTable, r.mask = 0xE0 := by decide

/-- The rows that cover a byte are those of the pattern its class has, and each class has one. -/
theorem rows_covering (ob : Byte) : (opcodeTable.filter fun r => r.covers ob).map (fun r => r.instruction) = [classOf ob] := by
  have hcovers : ∀ r ∈ opcodeTable, r.covers ob = (opcodeByte (classOf ob) .none .fast == r.pattern) := by
    intro r hr
    rw [OpcodeRow.covers, opcodeTable_mask r hr, and_classMask]
  rw [List.filter_congr hcovers]
  cases classOf ob <;> rfl

/-- Settles O2: the class of the row (`rows_covering`) is the class decoded. -/
theorem oneTableRowCoversEachOpcode : Obligations.OneTableRowCoversEachOpcode := by
  intro w0 w1 w2
  rw [rows_covering, decode, opClass_ofClass]

/-! ### The cells of written instructions -/

/-- Settles O3: the opcode byte of a written instruction is the sum of its fields (`opcodeByte_toNat`), and its class, flags and
tag are read back from it. -/
theorem decodeOfEncodedWords : Obligations.DecodeOfEncodedWords := by
  refine ⟨decode_encode, ?_, ?_, ?_⟩
  · rintro w k f speed n1 n2 _ rfl
    exact ⟨opcodeByte_toNat .., writtenOperand_toNat .., writtenOperand_toNat .., decode_of_narrow8 (narrow8_zextByte _) ..⟩
  · intro w f speed
    have h0 : writtenOperand w 0 = 0 := by rw [writtenOperand, Nat.zero_mod]; rfl
    rw [assemble, assemble, h0]
  · intro w ob n1 n2
    exact ⟨rfl, writtenOperand_toNat .., writtenOperand_toNat ..⟩

/-- Settles O6: closed cells, one for each class, that the decoder and the assembler evaluate. -/
theorem specCellsDecode : Obligations.SpecCellsDecode :=
  ⟨rfl, rfl, rfl, rfl, rfl, rfl, rfl, rfl, rfl, rfl⟩

end Sys2Proof

namespace Sys2Proof.Machine

/-- Settles O46: the tag's number is the byte modulo 4 (`speedOf_code`), and no arm of `exec` names the tag. -/
theorem speedTagHasNoEffect : Obligations.SpeedTagHasNoEffect := by
  constructor
  · intro ob
    have tag : ∀ sp : Speed, ob.toNat % 4 = sp.code → speedOf ob = sp := fun sp h =>
      Speed.code_injective ((speedOf_code ob).trans h)
    exact ⟨tag .fast, tag .medium, tag .slow, tag .halt⟩
  · intro s i sp
    cases i <;> rfl

/-! ### The fetch and the step at a cell -/

/-- A fetch whose three loads succeed ends in the state the third leaves (R91). -/
theorem fetch_of_loads {s s1 s2 s3 : State} {w0 w1 w2 : Word} (h0 : s.load s.regZero = .ok w0 s1)
    (h1 : s1.load (addW s.cfg.width s.regZero 1) = .ok w1 s2) (h2 : s2.load (addW s.cfg.width s.regZero 2) = .ok w2 s3) :
    s.fetch = .ok ⟨w0, w1, w2⟩ s3 := by
  simp only [State.fetch, h0, h1, h2]

/-- Settles O23: the three addresses are the fetch's own, and loads of static addresses succeed in place. -/
theorem fetchReadsThreeConsecutiveWords : Obligations.FetchReadsThreeConsecutiveWords := by
  intro s p1 p2 w0 w1 w2 hp1 hp2
  have e1 : p1 = addW s.cfg.width s.regZero 1 := hp1.trans (addW_eq_ofNat _ _ 1).symm
  have e2 : p2 = addW s.cfg.width s.regZero 2 := hp2.trans (addW_eq_ofNat _ _ 2).symm
  rw [e1, e2]
  exact ⟨fun _ _ _ => fetch_of_loads, fetch_static⟩

/-- The three addresses of a cell hold its three fields (R45). -/
theorem peek_cell_address {s : State} {k : Nat} {p d : Word} (hwf : s.cfg.wf = true) (hk : k < nCells s.cfg)
    (hp : p.toNat = s.cfg.dataSize + 1 + 3 * k) (hd : d.toNat < 3) :
    s.peek (p + d) = some (fieldGet (s.cell k) d.toNat) := by
  have hcell : (3 * k + d.toNat) / 3 = k := by omega
  have hfield : (3 * k + d.toNat) % 3 = d.toNat := by omega
  rw [State.peek, place_cell_address hwf hk hp hd, placePeek, State.cacheGet, hcell, hfield]

/-- A fetch at field 0 of a cell reads the cell's fields (R70). -/
theorem fetch_cell {s : State} {k : Nat} (hwf : s.cfg.wf = true) (hk : k < nCells s.cfg)
    (hp : s.regZero.toNat = s.cfg.dataSize + 1 + 3 * k) :
    s.fetch = .ok ⟨zextByte (s.cell k).op, (s.cell k).a1, (s.cell k).a2⟩ s := by
  have h0 := peek_cell_address hwf hk hp (d := 0) (by decide)
  rw [add_zero] at h0
  exact fetch_at_cell hwf hk hp h0 (peek_cell_address hwf hk hp (by decide)) (peek_cell_address hwf hk hp (by decide))

/-- Settles O25: the fetch reads the cell (`fetch_cell`), and an encoded instruction decodes to itself (`decode_encode`). -/
theorem stepRunsTheCellAtRegZero : Obligations.StepRunsTheCellAtRegZero := by
  intro s k i hwf hk hp hcell
  have hfetch := fetch_cell hwf hk hp
  rw [hcell] at hfetch
  simp only [step, hfetch, decode_encode]

/-! ### Stores and jumps of the static regions -/

theorem storesAndAdvances_poke {s : State} {a : Word} (h : s.isStatic a = true) (v : Word) :
    StoresAndAdvances s (s.poke a v).advance a v := by
  refine ⟨rfl, ?_, fun b hb => ?_, poke_noDeviceCall s a v⟩
  · rw [State.advance_regZero, poke_cfg, poke_regZero]
    exact addW_eq_ofNat ..
  · rw [peek_advance _ hb, peek_poke h]

theorem pushAndAdvance_stores {s : State} {a : Word} (h : s.isStatic a = true) (f : Flags) (v : Word) :
    ∃ t, pushAndAdvance f a v s = .next t ∧ StoresAndAdvances s t a v :=
  ⟨_, pushAndAdvance_static h f v, storesAndAdvances_poke h v⟩

theorem poke_zero (s : State) (v : Word) : s.poke 0#64 v = { s with regZero := v } := by
  rw [State.poke, place_zero, placePoke]

/-- A push to address 0 is a jump: the next fetch is 3 past the Word pushed (R121). -/
theorem pushAndAdvance_jumps (s : State) (f : Flags) {v : Word} {next : Nat}
    (h : (v.toNat + 3) % 2 ^ s.cfg.width.bits = next % 2 ^ s.cfg.width.bits) :
    ∃ t, pushAndAdvance f 0 v s = .next t ∧ MovesOnlyRegZero s t next := by
  refine ⟨_, pushAndAdvance_static (isStatic_register (place_zero s)) f v, ?_⟩
  rw [poke_zero, MovesOnlyRegZero, ← h]
  exact movesOnlyRegZero_advance { s with regZero := v }

theorem exec_copy_of_peek {s : State} {a v : Word} (h : s.peek a = some v) (f : Flags) (sp : Speed) (d : Word) :
    exec (.copy f sp a d) s = pushAndAdvance f d v s := by
  rw [exec, execCopy, load_static h, tryBus]

theorem arithmetic_of_peek {s : State} {a1 a2 v1 v2 : Word} (h1 : s.peek a1 = some v1) (h2 : s.peek a2 = some v2)
    (op : Width → Word → Word → Word) (f : Flags) :
    arithmetic op f a1 a2 s = pushAndAdvance f a1 (op s.cfg.width v1 v2) s := by
  rw [arithmetic, loadBoth, load_static h1, tryBus, load_static h2, tryBus]

/-! ### The pseudo-instructions -/

/-- Subtracting and adding again gives the number back modulo `2^W`, as the jumps of R83 rely on. -/
theorem subW_toNat_add (w : Width) (a b : Word) : ((subW w a b).toNat + b.toNat) % 2 ^ w.bits = a.toNat % 2 ^ w.bits := by
  zify
  rw [subW_toNat, Nat.cast_pow, Nat.cast_ofNat, Int.emod_add_emod, sub_add_cancel]

/-- Settles O43: each expansion is one push of a Word the loads give, to `d` or to address 0 (`pushAndAdvance_stores`,
`pushAndAdvance_jumps`); STOP's push is escalated (O49). -/
theorem pseudoInstructionsDoAsNamed : Obligations.PseudoInstructionsDoAsNamed := by
  intro s a d v target ha hd _ _
  have hmov : ∀ dst, exec (.copy .none .fast a dst) s = pushAndAdvance .none dst v s := exec_copy_of_peek ha .none .fast
  have hadd : exec (Pseudo.jrel a) s = pushAndAdvance .none 0 (addW s.cfg.width s.regZero v) s :=
    arithmetic_of_peek (peek_zero s) ha addW .none
  refine ⟨pushAndAdvance_stores hd .none v, ?_, ?_, ?_, ?_, ?_, fun u hu => ?_⟩
  · exact hmov d ▸ pushAndAdvance_stores hd .none v
  · exact pushAndAdvance_jumps s .none (subW_toNat_add s.cfg.width target 3)
  · exact hmov 0 ▸ pushAndAdvance_jumps s .none rfl
  · rw [hadd]
    refine pushAndAdvance_jumps s .none ?_
    rw [addW_toNat, Nat.mod_add_mod]
  · exact pushAndAdvance_jumps s .none (subW_toNat_add s.cfg.width s.regZero 3)
  · exact (unpopulatedAccessIsAbsorbedOrEscalated s (Pseudo.stop u) [] [] u rfl (by simp) hu).2 rfl rfl

end Sys2Proof.Machine
end

section
/-! Proofs about the tick (40_engine.md): what a fetch that succeeds or fails makes of it, what a failing bus call of the execute
phase makes of an instruction, how an instruction that answers a next state ended, and that no tick reads what the last one
returned. -/

namespace Sys2Proof.Machine

/-! ### The tick after its fetch -/

/-- Settles O24: this is the branch of the tick that a successful fetch takes (R97). -/
theorem stepRunsTheDecodedInstruction : Obligations.StepRunsTheDecodedInstruction := by
  intro s t words h
  rw [step, h]

theorem step_of_fetch_err {s t : State} {e : CpuError} (h : s.fetch = .err e t) : step s = .next (t.escalate e) := by
  rw [step, h]

theorem step_of_fetch_boundary {s : State} (h : s.fetch = .boundary) : step s = .fault .boundaryAddress := by
  rw [step, h]

/-- Where the bus answers with a state, it is one that device calls alone lead to from `s`. -/
def BusResult.CallsOnlyFrom {α : Type} (s : State) : BusResult α → Prop
  | .ok _ t => DeviceCallsOnly s t
  | .err _ t => DeviceCallsOnly s t
  | .boundary => True

theorem load_callsOnly {s u : State} (h : DeviceCallsOnly s u) (a : Word) : (u.load a).CallsOnlyFrom s := by
  cases hl : u.load a with
  | ok v t => exact h.trans (load_ok_only hl)
  | err e t => exact h.trans (load_err_only hl)
  | boundary => trivial

/-- One bus call after another: what the second does with the Word and the state of the first, where that succeeds. -/
def BusResult.andThen {α β : Type} (x : BusResult α) (next : α → State → BusResult β) : BusResult β :=
  match x with
  | .ok v t => next v t
  | .err e t => .err e t
  | .boundary => .boundary

theorem fetch_eq_andThen (s : State) : s.fetch =
    (s.load s.regZero).andThen fun w0 s1 =>
      (s1.load (addW s.cfg.width s.regZero 1)).andThen fun w1 s2 =>
        (s2.load (addW s.cfg.width s.regZero 2)).andThen fun w2 s3 => .ok ⟨w0, w1, w2⟩ s3 := by
  unfold State.fetch
  cases s.load s.regZero with
  | err e t => rfl
  | boundary => rfl
  | ok w0 s1 =>
    simp only [BusResult.andThen]
    cases s1.load (addW s.cfg.width s.regZero 1) with
    | err e t => rfl
    | boundary => rfl
    | ok w1 s2 =>
      simp only
      cases s2.load (addW s.cfg.width s.regZero 2) <;> rfl

theorem callsOnly_andThen {α β : Type} {s : State} {x : BusResult α} {next : α → State → BusResult β}
    (h : x.CallsOnlyFrom s) (hnext : ∀ v t, DeviceCallsOnly s t → (next v t).CallsOnlyFrom s) :
    (x.andThen next).CallsOnlyFrom s := by
  cases x with
  | ok v t => exact hnext v t h
  | err e t => exact h
  | boundary => trivial

/-- The fetch, failing or not, makes device calls at most (R92). -/
theorem fetch_callsOnly (s : State) : s.fetch.CallsOnlyFrom s := by
  rw [fetch_eq_andThen]
  refine callsOnly_andThen (load_callsOnly (.refl s) _) fun w0 s1 calls1 => ?_
  refine callsOnly_andThen (load_callsOnly calls1 _) fun w1 s2 calls2 => ?_
  exact callsOnly_andThen (load_callsOnly calls2 _) fun w2 s3 calls3 => calls3

theorem fetch_ok_only {s t : State} {words : Fetched} (h : s.fetch = .ok words t) : DeviceCallsOnly s t := by
  have hf := fetch_callsOnly s
  rwa [h] at hf

theorem fetch_err_only {s t : State} {e : CpuError} (h : s.fetch = .err e t) : DeviceCallsOnly s t := by
  have hf := fetch_callsOnly s
  rwa [h] at hf

theorem step_of_failed_fetch {s t : State} {e : CpuError} (h : s.fetch = .err e t) :
    step s = .next { t with result := .err e } ∧ SameCore s t :=
  ⟨step_of_fetch_err h, (fetch_err_only h).sameCore⟩

/-- Settles O27: the fetch ends with its first load that does not succeed, and the tick with the fetch. -/
theorem fetchFailureEscalates : Obligations.FetchFailureEscalates := by
  intro s s1 s2 t p1 p2 w0 w1 e hp1 hp2
  have e1 : p1 = addW s.cfg.width s.regZero 1 := hp1.trans (addW_eq_ofNat _ _ 1).symm
  have e2 : p2 = addW s.cfg.width s.regZero 2 := hp2.trans (addW_eq_ofNat _ _ 2).symm
  rw [e1, e2]
  refine ⟨fun h0 => ?_, fun h0 h1 => ?_, fun h0 h1 h2 => ?_, fun h0 => ?_, fun h0 h1 => ?_, fun h0 h1 h2 => ?_⟩
  · exact step_of_failed_fetch (by simp only [State.fetch, h0])
  · exact step_of_failed_fetch (by simp only [State.fetch, h0, h1])
  · exact step_of_failed_fetch (by simp only [State.fetch, h0, h1, h2])
  · exact step_of_fetch_boundary (by simp only [State.fetch, h0])
  · exact step_of_fetch_boundary (by simp only [State.fetch, h0, h1])
  · exact step_of_fetch_boundary (by simp only [State.fetch, h0, h1, h2])

/-! ### The first bus call of the execute phase that fails -/

/-- Taking an error is R156's table. -/
theorem policyOutcome_takeError (f : Flags) (e : CpuError) (s : State) : PolicyOutcome f e s (takeError f e s) := by
  refine ⟨fun hie => ?_, fun hie hnh => ?_, fun _ hnh hnd => ?_, fun hie hnh hnd => ?_⟩
  · rw [takeError, errorPolicy_absorb (.inl hie)]
  · rw [takeError, errorPolicy_escalate hie hnh]
    rfl
  · rw [takeError, errorPolicy_absorb (.inr ⟨hnh, hnd⟩)]
  · have hrecord : errorPolicy f = .record := by
      rw [errorPolicy_record_iff, Flags.asksDiagnostic, hie, hnh, hnd]
      rfl
    rw [takeError, hrecord]
    exact ⟨fun t ht => by rw [ht], fun hb => by rw [hb], fun hh => by rw [hh]⟩

section FailingCall

variable {s s1 s2 t : State} {f : Flags} {a a1 a2 v v1 v2 : Word} {e : CpuError}

theorem policyOutcome_tryBus {α : Type} {r : BusResult α} (h : r = .err e t)
    (next : α → State → Host.Outcome State Fault Refusal) : PolicyOutcome f e t (tryBus f r next) := by
  rw [h]
  exact policyOutcome_takeError f e t

theorem policyOutcome_pushAndAdvance (h : s.push a v = .err e t) : PolicyOutcome f e t (pushAndAdvance f a v s) :=
  policyOutcome_tryBus h _

theorem tryBus_of_load (h : s.load a = .ok v t) (next : Word → State → Host.Outcome State Fault Refusal) :
    tryBus f (s.load a) next = next v t := by
  rw [h, tryBus]

theorem policyOutcome_loadBoth_second (h1 : s.load a1 = .ok v1 s1) (h2 : s1.load a2 = .err e t)
    (next : Word → Word → State → Host.Outcome State Fault Refusal) :
    PolicyOutcome f e t (loadBoth f a1 a2 s next) := by
  rw [loadBoth, tryBus_of_load h1]
  exact policyOutcome_tryBus h2 _

theorem loadBoth_of_loads (h1 : s.load a1 = .ok v1 s1) (h2 : s1.load a2 = .ok v2 s2)
    (next : Word → Word → State → Host.Outcome State Fault Refusal) : loadBoth f a1 a2 s next = next v1 v2 s2 := by
  rw [loadBoth, tryBus_of_load h1, tryBus_of_load h2]

theorem policyOutcome_arithmetic_push (h1 : s.load a1 = .ok v1 s1) (h2 : s1.load a2 = .ok v2 s2)
    {op : Width → Word → Word → Word} (h3 : s2.push a1 (op s2.cfg.width v1 v2) = .err e t) :
    PolicyOutcome f e t (arithmetic op f a1 a2 s) := by
  rw [arithmetic, loadBoth_of_loads h1 h2]
  exact policyOutcome_pushAndAdvance h3

end FailingCall

/-- Settles O48: each bus call is tried (`tryBus`), so its error is taken in the state it left (`policyOutcome_takeError`). -/
theorem firstFailingCallEndsTheInstruction : Obligations.FirstFailingCallEndsTheInstruction := by
  intro s s1 s2 s3 f sp a1 a2 v1 v2 e
  refine ⟨fun h => ?_, fun h i hi => ?_, fun h1 h2 => ?_, fun h1 h2 i hi => ?_, fun h1 h2 => ⟨?_, ?_, ?_, ?_⟩⟩
  · exact policyOutcome_pushAndAdvance h
  · rcases List.mem_cons.mp hi with rfl | hi
    · exact policyOutcome_tryBus h _
    · obtain ⟨next, he⟩ := exec_eq_loadBoth hi
      rw [he]
      exact policyOutcome_tryBus h _
  · rw [exec, execCopy, tryBus_of_load h1]
    exact policyOutcome_pushAndAdvance h2
  · obtain ⟨next, he⟩ := exec_eq_loadBoth hi
    rw [he]
    exact policyOutcome_loadBoth_second h1 h2 next
  · exact fun h3 => policyOutcome_arithmetic_push h1 h2 h3
  · exact fun h3 => policyOutcome_arithmetic_push h1 h2 h3
  · exact fun h3 => policyOutcome_arithmetic_push h1 h2 h3
  · intro hv h3
    rw [exec, execDiv, loadBoth_of_loads h1 h2, if_neg hv]
    exact policyOutcome_pushAndAdvance h3

/-! ### How an instruction ends in a next state -/

/-- The ways in which an instruction run from `s` answers the next state `t` (R94, R95). Before its end it made device calls at
most, since only its last bus call is a push that may succeed. -/
inductive EndsIn (i : Instr) (s t : State) : Prop where
  /-- NoOp made no bus call. -/
  | nop (hi : i = .nop) (ht : t = s.advance)
  /-- A bus call failed and its error was taken. -/
  | failed {u : State} {e : CpuError} (calls : DeviceCallsOnly s u) (ht : takeError i.flags e u = .next t)
  /-- The push to the destination succeeded. -/
  | pushed {u w : State} {a v : Word} (calls : DeviceCallsOnly s u) (hdest : i.destination = some a)
      (hpush : u.push a v = .ok () w) (ht : t = w.advance)
  /-- Both loads of a Compare succeeded. -/
  | compared {u : State} {v : Word} (calls : DeviceCallsOnly s u) (hi : i.opClass = .compare)
      (ht : t = { u with regZero := v }.advance)

namespace EndsIn

variable {i : Instr} {s t u : State} {a a1 a2 v : Word}

theorem pushAndAdvance (calls : DeviceCallsOnly s u) (hdest : i.destination = some a)
    (h : Machine.pushAndAdvance i.flags a v u = .next t) : EndsIn i s t := by
  unfold Machine.pushAndAdvance tryBus at h
  split at h
  · next w hp => exact .pushed calls hdest hp (Host.Outcome.next.inj h).symm
  · next e w hp => exact .failed (calls.trans (push_err_only hp)) h
  · cases h

theorem tryBus_load (calls : DeviceCallsOnly s u) {next : Word → State → Host.Outcome State Fault Refusal}
    (hnext : ∀ v w, DeviceCallsOnly s w → next v w = .next t → EndsIn i s t)
    (h : tryBus i.flags (u.load a) next = .next t) : EndsIn i s t := by
  unfold tryBus at h
  split at h
  · next v w hl => exact hnext v w (calls.trans (load_ok_only hl)) h
  · next e w hl => exact .failed (calls.trans (load_err_only hl)) h
  · cases h

theorem loadBoth {next : Word → Word → State → Host.Outcome State Fault Refusal}
    (hnext : ∀ v1 v2 w, DeviceCallsOnly s w → next v1 v2 w = .next t → EndsIn i s t)
    (h : Machine.loadBoth i.flags a1 a2 s next = .next t) : EndsIn i s t :=
  tryBus_load (.refl s) (fun v1 _ calls h => tryBus_load calls (fun v2 w calls h => hnext v1 v2 w calls h) h) h

theorem arithmetic {op : Width → Word → Word → Word} (hdest : i.destination = some a1)
    (h : Machine.arithmetic op i.flags a1 a2 s = .next t) : EndsIn i s t :=
  loadBoth (fun _ _ _ calls h => pushAndAdvance calls hdest h) h

theorem of_exec (h : exec i s = .next t) : EndsIn i s t := by
  cases i with
  | nop => exact .nop rfl (Host.Outcome.next.inj h).symm
  | load f sp a1 a2 => exact pushAndAdvance (.refl s) rfl h
  | copy f sp a1 a2 => exact tryBus_load (.refl s) (fun v w calls h => pushAndAdvance calls rfl h) h
  | cmp f sp a1 a2 =>
    exact loadBoth (fun v1 v2 w calls h => .compared calls rfl (Host.Outcome.next.inj h).symm) h
  | add f sp a1 a2 => exact arithmetic rfl h
  | sub f sp a1 a2 => exact arithmetic rfl h
  | mul f sp a1 a2 => exact arithmetic rfl h
  | div f sp a1 a2 =>
    refine loadBoth (fun v1 v2 w calls h => ?_) h
    split at h
    · cases h
    · exact pushAndAdvance calls rfl h

end EndsIn

/-! ### Ticks that return an error -/

/-- Only an escalated error is returned, and escalating writes the result alone (R96, R161). -/
theorem takeError_returns_err {f : Flags} {e e' : CpuError} {s t : State} (h : takeError f e s = .next t)
    (hr : t.result = .err e') : SameCore s t := by
  rcases takeError_cases f e s with ⟨_, he⟩ | ⟨_, he⟩ | ⟨_, _, _, he⟩ | ⟨_, _, he⟩ | ⟨_, _, he⟩ <;> cases he.symm.trans h
  · cases hr
  · exact ⟨rfl, rfl, rfl, rfl, rfl⟩
  · cases hr

theorem DeviceCallsOnly.sameCore_trans {s u t : State} (h : DeviceCallsOnly s u) (k : SameCore u t) : SameCore s t := by
  obtain ⟨hc, hv, hr, hd, hk⟩ := k
  exact ⟨hc.trans h.cfg, hv.trans h.devices, hr.trans h.regZero, hd.trans h.data, hk.trans h.cells⟩

theorem exec_returns_err {i : Instr} {s t : State} {e : CpuError} (h : exec i s = .next t) (hr : t.result = .err e) :
    SameCore s t := by
  cases EndsIn.of_exec h with
  | nop _ ht => rw [ht] at hr; cases hr
  | failed calls ht => exact calls.sameCore_trans (takeError_returns_err ht hr)
  | pushed _ _ _ ht => rw [ht] at hr; cases hr
  | compared _ _ ht => rw [ht] at hr; cases hr

/-- Settles O30: a fetch makes device calls at most, and an instruction that returns an error had made no more. -/
theorem escalatedTickWritesNothing : Obligations.EscalatedTickWritesNothing := by
  intro s t e h hr
  unfold step at h
  split at h
  · next words u hf => exact (fetch_ok_only hf).sameCore_trans (exec_returns_err h hr)
  · next e u hf =>
    cases h
    exact (fetch_err_only hf).sameCore
  · cases h

/-! ### Ticks that return `Ok(())` -/

/-- Where `DIAG_ADDR` is 0 the diagnostic write stores `reg_zero` in itself (R158). -/
theorem diagnosticWrite_keeps_regZero {s t : State} (h : s.diagnosticWrite = .done t) :
    t.cfg = s.cfg ∧ t.regZero = s.regZero := by
  rcases diagnosticWrite_cases s with ⟨_, he⟩ | ⟨_, _, _, he, only⟩ | ⟨_, he⟩ | ⟨_, he⟩ <;> cases he.symm.trans h
  · exact ⟨poke_cfg .., (poke_regZero ..).trans (ite_self _)⟩
  · exact ⟨only.cfg, only.regZero⟩

theorem push_keeps_regZero {s t : State} {a v : Word} (ha : a ≠ 0) (h : s.push a v = .ok () t) :
    t.cfg = s.cfg ∧ t.regZero = s.regZero := by
  rcases push_ok_cases h with ⟨_, rfl⟩ | only
  · exact ⟨poke_cfg .., (poke_regZero ..).trans (if_neg ha)⟩
  · exact ⟨only.cfg, only.regZero⟩

/-- The advance from any state that still has the profile and `reg_zero` of `s` (R95). -/
theorem advance_regZero_of_kept {s u : State} (h : u.cfg = s.cfg ∧ u.regZero = s.regZero) :
    u.advance.regZero = addW s.cfg.width s.regZero stride := by
  rw [State.advance_regZero, h.1, h.2]

theorem takeError_returns_ok {f : Flags} {e : CpuError} {s t : State} (h : takeError f e s = .next t)
    (hr : t.result = .ok) : t.regZero = addW s.cfg.width s.regZero stride := by
  rcases takeError_cases f e s with ⟨_, he⟩ | ⟨_, he⟩ | ⟨_, u, hu, he⟩ | ⟨_, _, he⟩ | ⟨_, _, he⟩ <;> cases he.symm.trans h
  · rfl
  · cases hr
  · exact advance_regZero_of_kept (diagnosticWrite_keeps_regZero hu)

/-- Settles O56: an absorbed error and a push elsewhere than to address 0 leave `reg_zero` to the advance. -/
theorem okTickAdvancesByThree : Obligations.OkTickAdvancesByThree := by
  intro s t i h hr hdest hclass
  suffices advanced : t.regZero = addW s.cfg.width s.regZero stride from advanced.trans (addW_eq_ofNat ..)
  cases EndsIn.of_exec h with
  | nop _ ht => rw [ht, State.advance_regZero]
  | failed calls ht => rw [takeError_returns_ok ht hr, calls.cfg, calls.regZero]
  | @pushed _ _ a _ calls ha hpush ht =>
    have hne : a ≠ 0 := fun h0 => hdest (h0 ▸ ha)
    obtain ⟨hc, hz⟩ := push_keeps_regZero hne hpush
    rw [ht]
    exact advance_regZero_of_kept ⟨hc.trans calls.cfg, hz.trans calls.regZero⟩
  | compared _ hi _ => exact absurd hi hclass

/-! ### No tick reads what the last one returned -/

/-- The state as if the last tick had returned `r`. -/
def State.withResult (s : State) (r : TickResult) : State := { s with result := r }

/-- The same bus answer, in the state as if the last tick had returned `r`. -/
def BusResult.withResult {α : Type} (r : TickResult) : BusResult α → BusResult α
  | .ok v s => .ok v (s.withResult r)
  | .err e s => .err e (s.withResult r)
  | .boundary => .boundary

/-- The same end of the diagnostic write, in the state as if the last tick had returned `r`. -/
def DiagnosticResult.withResult (r : TickResult) : DiagnosticResult → DiagnosticResult
  | .done s => .done (s.withResult r)
  | .boundary => .boundary
  | .hang => .hang

section WithResult

variable (s : State) (r : TickResult)

theorem withResult_cfg : (s.withResult r).cfg = s.cfg := rfl

theorem withResult_regZero : (s.withResult r).regZero = s.regZero := rfl

theorem place_withResult (a : Word) : (s.withResult r).place a = s.place a := rfl

theorem nextAnswer_withResult (d : Nat) (call : DeviceCall) :
    (s.withResult r).nextAnswer d call = s.nextAnswer d call := rfl

theorem load_withResult (a : Word) : (s.withResult r).load a = (s.load a).withResult r := by
  rw [State.load, place_withResult, State.load]
  cases s.place a with
  | device d =>
    simp only [nextAnswer_withResult]
    cases s.nextAnswer d (.load a) <;> rfl
  | _ => rfl

theorem push_withResult (a v : Word) : (s.withResult r).push a v = (s.push a v).withResult r := by
  rw [State.push, place_withResult, State.push]
  cases s.place a with
  | device d =>
    simp only [nextAnswer_withResult]
    cases s.nextAnswer d (.push a v) <;> rfl
  | _ => rfl

theorem recordFailures_withResult (d : Nat) (call : DeviceCall) (xs : List Word) :
    (s.withResult r).recordFailures d call xs = (s.recordFailures d call xs).withResult r := by
  induction xs generalizing s with
  | nil => rfl
  | cons x xs ih => exact ih (s.recordCall d call (.failed (wrap s.cfg.width x)))

theorem retryPush_withResult (d : Nat) (call : DeviceCall) (script : List DeviceAnswer) :
    retryPush d call script (s.withResult r) = (retryPush d call script s).withResult r := by
  induction script generalizing s with
  | nil =>
    have hdraw : Config.retriedPush (s.withResult r).draws (s.withResult r).events d call =
        Config.retriedPush s.draws s.events d call := rfl
    unfold retryPush
    rw [hdraw]
    cases Config.retriedPush s.draws s.events d call with
    | none => rfl
    | some payloads =>
      simp only [recordFailures_withResult]
      rfl
  | cons a rest ih =>
    cases a with
    | ok x => rfl
    | failed x => exact ih (s.recordCall d call (.failed (wrap s.cfg.width x)))

theorem poke_withResult (a v : Word) : (s.withResult r).poke a v = (s.poke a v).withResult r := by
  rw [State.poke, place_withResult, State.poke]
  cases s.place a <;> rfl

theorem diagnosticWrite_withResult : (s.withResult r).diagnosticWrite = s.diagnosticWrite.withResult r := by
  rw [State.diagnosticWrite, withResult_cfg, place_withResult, State.diagnosticWrite]
  cases s.place s.cfg.diagAddr with
  | device d => exact retryPush_withResult s r d ..
  | boundary => rfl
  | unpopulated => rfl
  | _ => exact congrArg DiagnosticResult.done (poke_withResult s r ..)

theorem takeError_withResult (f : Flags) (e : CpuError) : takeError f e (s.withResult r) = takeError f e s := by
  unfold takeError
  rw [diagnosticWrite_withResult]
  cases errorPolicy f with
  | record => cases s.diagnosticWrite <;> rfl
  | _ => rfl

theorem tryBus_withResult {α : Type} (f : Flags) (x : BusResult α) {next : α → State → Host.Outcome State Fault Refusal}
    (hnext : ∀ v u, next v (u.withResult r) = next v u) : tryBus f (x.withResult r) next = tryBus f x next := by
  cases x with
  | ok v u => exact hnext v u
  | err e u => exact takeError_withResult u r f e
  | boundary => rfl

theorem pushAndAdvance_withResult (f : Flags) (a v : Word) :
    pushAndAdvance f a v (s.withResult r) = pushAndAdvance f a v s := by
  rw [pushAndAdvance, push_withResult]
  exact tryBus_withResult r f _ fun _ _ => rfl

theorem tryBus_load_withResult (f : Flags) (a : Word) {next : Word → State → Host.Outcome State Fault Refusal}
    (hnext : ∀ v u, next v (u.withResult r) = next v u) :
    tryBus f ((s.withResult r).load a) next = tryBus f (s.load a) next := by
  rw [load_withResult]
  exact tryBus_withResult r f _ hnext

theorem loadBoth_withResult (f : Flags) (a1 a2 : Word) {next : Word → Word → State → Host.Outcome State Fault Refusal}
    (hnext : ∀ v1 v2 u, next v1 v2 (u.withResult r) = next v1 v2 u) :
    loadBoth f a1 a2 (s.withResult r) next = loadBoth f a1 a2 s next :=
  tryBus_load_withResult s r f a1 fun v1 u => tryBus_load_withResult u r f a2 (hnext v1)

theorem arithmetic_withResult (op : Width → Word → Word → Word) (f : Flags) (a1 a2 : Word) :
    arithmetic op f a1 a2 (s.withResult r) = arithmetic op f a1 a2 s :=
  loadBoth_withResult s r f a1 a2 fun _ _ u => pushAndAdvance_withResult u r f a1 _

theorem exec_withResult (i : Instr) : exec i (s.withResult r) = exec i s := by
  cases i with
  | nop => rfl
  | load f sp a1 a2 => exact pushAndAdvance_withResult s r f a1 a2
  | copy f sp a1 a2 => exact tryBus_load_withResult s r f a1 fun v u => pushAndAdvance_withResult u r f a2 v
  | cmp f sp a1 a2 => exact loadBoth_withResult s r f a1 a2 fun _ _ _ => rfl
  | add f sp a1 a2 => exact arithmetic_withResult s r addW f a1 a2
  | sub f sp a1 a2 => exact arithmetic_withResult s r subW f a1 a2
  | mul f sp a1 a2 => exact arithmetic_withResult s r mulW f a1 a2
  | div f sp a1 a2 =>
    refine loadBoth_withResult s r f a1 a2 fun v1 v2 u => ?_
    simp only [pushAndAdvance_withResult]

theorem andThen_withResult {α β : Type} (x : BusResult α) {next : α → State → BusResult β}
    (hnext : ∀ v u, next v (u.withResult r) = (next v u).withResult r) :
    (x.withResult r).andThen next = (x.andThen next).withResult r := by
  cases x with
  | ok v u => exact hnext v u
  | err e u => rfl
  | boundary => rfl

theorem fetch_withResult : (s.withResult r).fetch = s.fetch.withResult r := by
  rw [fetch_eq_andThen, fetch_eq_andThen, withResult_regZero, withResult_cfg, load_withResult]
  refine andThen_withResult r _ fun w0 s1 => ?_
  rw [load_withResult]
  refine andThen_withResult r _ fun w1 s2 => ?_
  rw [load_withResult]
  exact andThen_withResult r _ fun w2 s3 => rfl

/-- The result field is written by every tick and read by none (log entry 6). -/
theorem step_withResult : step (s.withResult r) = step s := by
  unfold step
  rw [fetch_withResult]
  cases s.fetch with
  | ok words t => exact exec_withResult t r _
  | err e t => rfl
  | boundary => rfl

end WithResult

/-- The CORE, the devices and the oracle's record make up the whole state but for the result. -/
theorem eq_withResult {s t : State} (core : SameCore s t) (calls : NoDeviceCall s t) : t = s.withResult t.result := by
  obtain ⟨_, _, hr, hd, hk⟩ := core
  obtain ⟨hc, hv, hs, hn, he⟩ := calls
  rw [State.withResult, ← hc, ← hr, ← hd, ← hk, ← hv, ← hs, ← hn, ← he]

/-- Settles O31: the tick wrote nothing (O30) and drew nothing (O60), so the next one starts from the same state but for the
result, which it does not read (`step_withResult`). -/
theorem tickAfterErrRepeatsIt : Obligations.TickAfterErrRepeatsIt := by
  intro s t e hdev h hr
  have same := eq_withResult (escalatedTickWritesNothing s t e h hr) (withoutDevicesNothingIsDrawn s t hdev h)
  calc step t = step (s.withResult t.result) := congrArg step same
    _ = step s := step_withResult s t.result
    _ = .next t := h

end Sys2Proof.Machine
end

section
/-! Proofs about the data movement instructions (41_data_movement.md), and about what any instruction answers once its bus calls
succeed, through devices as well as memory. -/

namespace Sys2Proof.Machine

/-! ### NOP, LOAD and COPY -/

/-- Settles O33: NOP is the advance alone (`movesOnlyRegZero_advance`). -/
theorem nopOnlyAdvances : Obligations.NopOnlyAdvances :=
  fun s => ⟨s.advance, rfl, movesOnlyRegZero_advance s⟩

/-- Settles O34: LOAD is one push of its immediate (`pushAndAdvance_stores`). -/
theorem loadStoresItsImmediate : Obligations.LoadStoresItsImmediate :=
  fun _ f _ _ a2 h => pushAndAdvance_stores h f a2

/-- Settles O35: after its load COPY is one push of the Word loaded (`exec_copy_of_peek`, `pushAndAdvance_stores`). -/
theorem copyStoresTheSourceWord : Obligations.CopyStoresTheSourceWord := by
  intro s f sp a1 a2 v hv hs
  rw [exec_copy_of_peek hv]
  exact pushAndAdvance_stores hs f v

/-! ### The datapath's Words, written as numbers -/

theorem subW_eq_ofInt (w : Width) (a b : Word) :
    subW w a b = BitVec.ofInt 64 (((a.toNat : Int) - (b.toNat : Int)) % (2 : Int) ^ w.bits) := by
  have h : ((a.toNat : Int) - (b.toNat : Int)) % (2 : Int) ^ w.bits = ((subW w a b).toNat : Int) := by
    rw [subW_toNat, Nat.cast_pow, Nat.cast_ofNat]
  rw [h, BitVec.ofInt_natCast, BitVec.ofNat_toNat, BitVec.setWidth_eq]

theorem mulW_eq_ofNat (w : Width) (a b : Word) : mulW w a b = BitVec.ofNat 64 (a.toNat * b.toNat % 2 ^ w.bits) := by
  rw [← mulW_toNat, BitVec.ofNat_toNat, BitVec.setWidth_eq]

theorem divW_eq_ofNat (a b : Word) : divW a b = BitVec.ofNat 64 (a.toNat / b.toNat) := by
  rw [← divW_toNat, BitVec.ofNat_toNat, BitVec.setWidth_eq]

/-- Compare's adjustment and the stride together, as the distance of R120. -/
theorem compareAdjust_toNat_add_stride (v1 v2 : Word) :
    (compareAdjust v1 v2).toNat + stride.toNat =
      if v1.toNat = v2.toNat then 4 else if v2.toNat < v1.toNat then 5 else 3 := by
  simp only [compareAdjust, BitVec.toNat_inj]
  split_ifs <;> rfl

/-- Adding the adjustment and then the stride reduces modulo `2^W` twice, which is reducing once. -/
theorem addW_compareAdjust_stride (w : Width) (r v1 v2 : Word) :
    addW w (addW w r (compareAdjust v1 v2)) stride =
      BitVec.ofNat 64 ((r.toNat + (if v1.toNat = v2.toNat then 4 else if v2.toNat < v1.toNat then 5 else 3)) %
        2 ^ w.bits) := by
  rw [addW_eq_ofNat, addW_toNat, Nat.mod_add_mod, Nat.add_assoc, compareAdjust_toNat_add_stride]

/-! ### Bus calls that succeed one after another -/

section SuccessfulCalls

variable {s s1 s2 t : State} {f : Flags} {sp : Speed} {a a1 a2 v v1 v2 : Word}

theorem pushAndAdvance_of_push (h : s.push a v = .ok () t) : pushAndAdvance f a v s = .next t.advance := by
  rw [pushAndAdvance, h, tryBus]

theorem exec_copy_of_load (h : s.load a1 = .ok v t) : exec (.copy f sp a1 a2) s = pushAndAdvance f a2 v t :=
  tryBus_of_load h _

theorem exec_cmp_of_loads (h1 : s.load a1 = .ok v1 s1) (h2 : s1.load a2 = .ok v2 s2) :
    exec (.cmp f sp a1 a2) s =
      .next { s2 with regZero := addW s2.cfg.width s2.regZero (compareAdjust v1 v2) }.advance :=
  loadBoth_of_loads h1 h2 _

theorem arithmetic_of_loads (h1 : s.load a1 = .ok v1 s1) (h2 : s1.load a2 = .ok v2 s2)
    (op : Width → Word → Word → Word) :
    arithmetic op f a1 a2 s = pushAndAdvance f a1 (op s2.cfg.width v1 v2) s2 :=
  loadBoth_of_loads h1 h2 _

theorem exec_div_of_loads (h1 : s.load a1 = .ok v1 s1) (h2 : s1.load a2 = .ok v2 s2) (hv : v2 ≠ 0) :
    exec (.div f sp a1 a2) s = pushAndAdvance f a1 (divW v1 v2) s2 := by
  rw [exec, execDiv, loadBoth_of_loads h1 h2, if_neg hv]

end SuccessfulCalls

/-- Settles O45: loads that succeed leave the instruction's last line, a push of the datapath's Word or Compare's adjustment, and
a push that succeeds leaves the advance (`pushAndAdvance_of_push`). -/
theorem successfulBusCallsComplete : Obligations.SuccessfulBusCallsComplete := by
  intro s s1 s2 s3 f sp a1 a2 v1 v2
  refine ⟨fun hp => pushAndAdvance_of_push hp,
    fun h1 => ⟨fun hp => (exec_copy_of_load h1).trans (pushAndAdvance_of_push hp),
      fun h2 => ⟨?cmp, fun hp => ?add, fun hp => ?sub, fun hp => ?mul, fun hv hp => ?div⟩⟩⟩
  case cmp => rw [exec_cmp_of_loads h1 h2, State.advance, addW_compareAdjust_stride]
  case add =>
    rw [← addW_eq_ofNat] at hp
    exact (arithmetic_of_loads h1 h2 addW).trans (pushAndAdvance_of_push hp)
  case sub =>
    rw [← subW_eq_ofInt] at hp
    exact (arithmetic_of_loads h1 h2 subW).trans (pushAndAdvance_of_push hp)
  case mul =>
    rw [← mulW_eq_ofNat] at hp
    exact (arithmetic_of_loads h1 h2 mulW).trans (pushAndAdvance_of_push hp)
  case div =>
    rw [← divW_eq_ofNat] at hp
    exact (exec_div_of_loads h1 h2 hv).trans (pushAndAdvance_of_push hp)

end Sys2Proof.Machine
end

section
/-! Proofs about Compare and control flow (42_compare_control.md): Compare's move, the fetch at any field of a cell that the move
leads to, and the jumps of the instructions that write address 0. -/

namespace Sys2Proof.Machine

/-! ### Compare -/

/-- Settles O36: both loads succeed in place (`exec_cmp_of_loads`), and the adjustment with the advance is the distance of R120
(`addW_compareAdjust_stride`). -/
theorem compareSkipsByTheOutcome : Obligations.CompareSkipsByTheOutcome := by
  intro s f sp a1 a2 v1 v2 h1 h2
  exact ⟨_, exec_cmp_of_loads (load_static h1) (load_static h2), rfl,
    addW_compareAdjust_stride s.cfg.width s.regZero v1 v2, rfl, rfl, rfl, rfl, rfl, rfl, rfl⟩

/-! ### A fetch at any field of a cell -/

/-- Offset `3k + j` of the cache is field `j` of cell `k` (R45). -/
theorem cacheGet_field (s : State) (k : Nat) {j : Nat} (hj : j < 3) : s.cacheGet (3 * k + j) = fieldGet (s.cell k) j := by
  have hcell : (3 * k + j) / 3 = k := by omega
  have hfield : (3 * k + j) % 3 = j := by omega
  rw [State.cacheGet, hcell, hfield]

section Cache

variable {s : State} {n : Nat}

theorem peek_instruction_address {a : Word} (ha : a.toNat = iBase s.cfg + n) (hn : n < s.cfg.instructionSize) :
    s.peek a = some (s.cacheGet n) := by
  have htop : a.toNat < aTop s.cfg := by
    rw [ha]
    exact Nat.add_lt_add_left hn _
  rw [State.peek, place_of_instruction (by omega) htop, ha, Nat.add_sub_cancel_left, placePeek]

/-- A fetch inside the instruction segment reads three words of the cache one after another, whether or not they are one cell's. -/
theorem fetch_cache (hwf : s.cfg.wf = true) (hp : s.regZero.toNat = iBase s.cfg + n) (hn : n + 2 < s.cfg.instructionSize) :
    s.fetch = .ok ⟨s.cacheGet n, s.cacheGet (n + 1), s.cacheGet (n + 2)⟩ s := by
  obtain ⟨_, _, _, htop, _⟩ := (Config.wf_iff _).mp hwf
  have next : ∀ d : Word, d.toNat ≤ 2 → s.peek (addW s.cfg.width s.regZero d) = some (s.cacheGet (n + d.toNat)) := by
    intro d hd
    have hlt : s.regZero.toNat + d.toNat < 2 ^ s.cfg.width.bits := by
      rw [hp, iBase]
      omega
    exact peek_instruction_address (by rw [addW_toNat, Nat.mod_eq_of_lt hlt, hp, Nat.add_assoc]) (by omega)
  exact fetch_static (peek_instruction_address hp (by omega)) (next 1 (by decide)) (next 2 (by decide))

end Cache

/-- Settles O26: in each phase the fetch reads three consecutive words of the cache (`fetch_cache`), and `cacheGet_field` says
which cell's fields they are. -/
theorem fetchPhasesAfterCompare : Obligations.FetchPhasesAfterCompare := by
  intro s k hwf
  have field1 : s.cacheGet (3 * k + 1) = (s.cell k).a1 := cacheGet_field s k (by decide)
  have field2 : s.cacheGet (3 * k + 2) = (s.cell k).a2 := cacheGet_field s k (by decide)
  have next0 : s.cacheGet (3 * k + 3) = zextByte (s.cell (k + 1)).op := cacheGet_field s (k + 1) (j := 0) (by decide)
  have next1 : s.cacheGet (3 * k + 4) = (s.cell (k + 1)).a1 := cacheGet_field s (k + 1) (j := 1) (by decide)
  have room : k + 1 < nCells s.cfg → 3 * k + 4 < s.cfg.instructionSize := by
    unfold nCells
    omega
  refine ⟨fetch_cell hwf, fun hk hp => ?_, fun hk hp => ?_⟩
  · rw [fetch_cache hwf (n := 3 * k + 1) hp (Nat.lt_of_succ_lt (room hk)), field1, field2, next0]
  · rw [fetch_cache hwf (n := 3 * k + 2) hp (room hk), field2, next0, next1]

/-! ### Writes to address 0 -/

/-- Subtracting a Word of the profile is adding its distance to `2^W`. -/
theorem subW_toNat_of_lt {w : Width} {b : Word} (a : Word) (hb : b.toNat < 2 ^ w.bits) :
    (subW w a b).toNat = (a.toNat + (2 ^ w.bits - b.toNat)) % 2 ^ w.bits := by
  have h := subW_toNat w a b
  zify [hb.le] at h ⊢
  rw [h, ← Int.add_emod_right, add_sub_assoc', sub_add_eq_add_sub]

section JumpsOfTheDatapath

variable {s : State} {a v : Word} (ha : s.peek a = some v)

include ha

/-- Add, Sub and Mul with destination 0 jump to 3 past the Word their operator makes of `reg_zero` (R121). -/
theorem arithmetic_jumps (op : Width → Word → Word → Word) (f : Flags) {next : Nat}
    (h : ((op s.cfg.width s.regZero v).toNat + 3) % 2 ^ s.cfg.width.bits = next % 2 ^ s.cfg.width.bits) :
    ∃ t, arithmetic op f 0 a s = .next t ∧ MovesOnlyRegZero s t next :=
  arithmetic_of_peek (peek_zero s) ha op f ▸ pushAndAdvance_jumps s f h

theorem exec_div_jumps (hv : v ≠ 0) (f : Flags) (sp : Speed) :
    ∃ t, exec (.div f sp 0 a) s = .next t ∧ MovesOnlyRegZero s t (s.regZero.toNat / v.toNat + 3) :=
  exec_div_of_loads (load_static (peek_zero s)) (load_static ha) hv ▸
    pushAndAdvance_jumps s f (by rw [divW_toNat])

end JumpsOfTheDatapath

/-- DIV faults once both its loads succeed and the second gives 0 (R134). -/
theorem exec_div_by_zero {s s1 s2 : State} {a1 a2 v1 : Word} (h1 : s.load a1 = .ok v1 s1) (h2 : s1.load a2 = .ok 0 s2)
    (f : Flags) (sp : Speed) : exec (.div f sp a1 a2) s = .fault .divideByZero := by
  rw [exec, execDiv, loadBoth_of_loads h1 h2, if_pos rfl]

/-- Settles O42: each instruction's last line is one push to address 0, which jumps to 3 past the Word pushed
(`pushAndAdvance_jumps`), and DIV tests its divisor before that push. -/
theorem writesToAddressZeroJump : Obligations.WritesToAddressZeroJump := by
  intro s f sp a v ha
  refine ⟨?load, ?copy, ?add, fun hv => ?sub, ?mul, fun hv => ?div, fun hv => ?divByZero⟩
  case load => exact pushAndAdvance_jumps s f rfl
  case copy => exact exec_copy_of_peek ha f sp 0 ▸ pushAndAdvance_jumps s f rfl
  case add => exact arithmetic_jumps ha addW f (by rw [addW_toNat, Nat.mod_add_mod])
  case sub => exact arithmetic_jumps ha subW f (by rw [subW_toNat_of_lt _ hv, Nat.mod_add_mod])
  case mul => exact arithmetic_jumps ha mulW f (by rw [mulW_toNat, Nat.mod_add_mod])
  case div => exact exec_div_jumps ha hv f sp
  case divByZero => exact exec_div_by_zero (load_static (peek_zero s)) (load_static (hv ▸ ha)) f sp

end Sys2Proof.Machine
end

section
/-! Proofs about arithmetic (43_arithmetic.md): the datapath's Words as numbers, what ADD, SUB, MUL and DIV store at a static
destination, and when an instruction faults with `DivideByZero`. -/

namespace Sys2Proof.Machine

/-! ### The datapath -/

/-- Between Words of the profile a negative difference is below 0 by less than `2^W`, so one `2^W` is added (R135). -/
theorem subW_toNat_of_fits {w : Width} {a b : Word} (ha : a.toNat < 2 ^ w.bits) (hb : b.toNat < 2 ^ w.bits) :
    (subW w a b).toNat = if a.toNat < b.toNat then a.toNat + 2 ^ w.bits - b.toNat else a.toNat - b.toNat := by
  rw [subW_toNat_of_lt a hb, ← Nat.add_sub_assoc hb.le]
  split
  · exact Nat.mod_eq_of_lt (by omega)
  · next hle =>
    rw [Nat.sub_add_comm (Nat.le_of_not_lt hle), Nat.add_mod_right]
    exact Nat.mod_eq_of_lt (by omega)

/-- Settles O47: each operation is one on numbers, reduced modulo `2^W`; only the difference needs its operands below `2^W`
(`subW_toNat_of_fits`). -/
theorem datapathIsUnsignedModular : Obligations.DatapathIsUnsignedModular :=
  fun w a b ha hb => ⟨addW_toNat w a b, subW_toNat_of_fits ha hb, mulW_toNat w a b, fun _ => divW_toNat a b⟩

/-! ### What ADD, SUB, MUL and DIV store -/

section Stores

variable {s : State} {a1 a2 v1 v2 : Word} (h1 : s.peek a1 = some v1) (h2 : s.peek a2 = some v2)

include h1 h2

/-- Add, Sub and Mul on the static regions store at their first operand what the operator makes of the two Words (R136). -/
theorem arithmetic_stores (op : Width → Word → Word → Word) (f : Flags) :
    ∃ t, arithmetic op f a1 a2 s = .next t ∧ StoresAndAdvances s t a1 (op s.cfg.width v1 v2) :=
  arithmetic_of_peek h1 h2 op f ▸ pushAndAdvance_stores ((isStatic_iff_peek s a1).mpr ⟨v1, h1⟩) f _

theorem exec_div_stores (hv : v2 ≠ 0) (f : Flags) (sp : Speed) :
    ∃ t, exec (.div f sp a1 a2) s = .next t ∧ StoresAndAdvances s t a1 (divW v1 v2) :=
  exec_div_of_loads (load_static h1) (load_static h2) hv ▸
    pushAndAdvance_stores ((isStatic_iff_peek s a1).mpr ⟨v1, h1⟩) f _

end Stores

/-- Settles O37: ADD stores what `addW` gives, the sum as a number (`arithmetic_stores`). -/
theorem addStoresTheSum : Obligations.AddStoresTheSum := by
  intro s f sp a1 a2 v1 v2 h1 h2
  exact addW_eq_ofNat s.cfg.width v1 v2 ▸ arithmetic_stores h1 h2 addW f

/-- Settles O38: SUB stores what `subW` gives, the difference as an integer (`arithmetic_stores`). -/
theorem subStoresTheDifference : Obligations.SubStoresTheDifference := by
  intro s f sp a1 a2 v1 v2 h1 h2
  exact subW_eq_ofInt s.cfg.width v1 v2 ▸ arithmetic_stores h1 h2 subW f

/-- Settles O39: MUL stores what `mulW` gives, the product as a number (`arithmetic_stores`). -/
theorem mulStoresTheProduct : Obligations.MulStoresTheProduct := by
  intro s f sp a1 a2 v1 v2 h1 h2
  exact mulW_eq_ofNat s.cfg.width v1 v2 ▸ arithmetic_stores h1 h2 mulW f

/-- Settles O40: with its divisor not 0, DIV stores what `divW` gives, the quotient as a number (`exec_div_stores`). -/
theorem divStoresTheQuotient : Obligations.DivStoresTheQuotient := by
  intro s f sp a1 a2 v1 v2 h1 h2 hv
  exact divW_eq_ofNat v1 v2 ▸ exec_div_stores h1 h2 hv f sp

/-! ### DivideByZero

No shared operation raises it, so an instruction that ends in it does so in what it makes of its loaded Words. -/

theorem takeError_ne_divideByZero {f : Flags} {e : CpuError} {s : State} : takeError f e s ≠ .fault .divideByZero := by
  rcases takeError_cases f e s with ⟨_, h⟩ | ⟨_, h⟩ | ⟨_, _, _, h⟩ | ⟨_, _, h⟩ | ⟨_, _, h⟩ <;> rw [h] <;> nofun

/-- A bus call that is followed by the fault had succeeded. -/
theorem tryBus_ok_of_divideByZero {α : Type} {f : Flags} {r : BusResult α}
    {next : α → State → Host.Outcome State Fault Refusal} (h : tryBus f r next = .fault .divideByZero) :
    ∃ v t, r = .ok v t ∧ next v t = .fault .divideByZero := by
  cases r with
  | ok v t => exact ⟨v, t, rfl, h⟩
  | err e t => exact absurd h takeError_ne_divideByZero
  | boundary => cases h

theorem pushAndAdvance_ne_divideByZero {f : Flags} {a v : Word} {s : State} :
    pushAndAdvance f a v s ≠ .fault .divideByZero := by
  intro h
  obtain ⟨_, _, _, hnext⟩ := tryBus_ok_of_divideByZero h
  cases hnext

theorem loads_ok_of_divideByZero {f : Flags} {a1 a2 : Word} {s : State}
    {next : Word → Word → State → Host.Outcome State Fault Refusal}
    (h : loadBoth f a1 a2 s next = .fault .divideByZero) :
    ∃ v1 v2 s1 s2, s.load a1 = .ok v1 s1 ∧ s1.load a2 = .ok v2 s2 ∧ next v1 v2 s2 = .fault .divideByZero := by
  obtain ⟨v1, s1, h1, hrest⟩ := tryBus_ok_of_divideByZero h
  obtain ⟨v2, s2, h2, hnext⟩ := tryBus_ok_of_divideByZero hrest
  exact ⟨v1, v2, s1, s2, h1, h2, hnext⟩

theorem arithmetic_ne_divideByZero {op : Width → Word → Word → Word} {f : Flags} {a1 a2 : Word} {s : State} :
    arithmetic op f a1 a2 s ≠ .fault .divideByZero := by
  intro h
  obtain ⟨_, _, _, _, _, _, hnext⟩ := loads_ok_of_divideByZero h
  exact pushAndAdvance_ne_divideByZero hnext

/-- Only DIV's test of its divisor raises the fault, once both loads have succeeded (R134, R160). -/
theorem eq_div_of_divideByZero {i : Instr} {s : State} (h : exec i s = .fault .divideByZero) :
    ∃ f sp a1 a2 v1 s1 s2, i = .div f sp a1 a2 ∧ s.load a1 = .ok v1 s1 ∧ s1.load a2 = .ok 0 s2 := by
  cases i with
  | nop => cases h
  | load f sp a1 a2 => exact absurd h pushAndAdvance_ne_divideByZero
  | copy f sp a1 a2 =>
    obtain ⟨_, _, _, hnext⟩ := tryBus_ok_of_divideByZero h
    exact absurd hnext pushAndAdvance_ne_divideByZero
  | cmp f sp a1 a2 =>
    obtain ⟨_, _, _, _, _, _, hnext⟩ := loads_ok_of_divideByZero h
    cases hnext
  | add f sp a1 a2 => exact absurd h arithmetic_ne_divideByZero
  | sub f sp a1 a2 => exact absurd h arithmetic_ne_divideByZero
  | mul f sp a1 a2 => exact absurd h arithmetic_ne_divideByZero
  | div f sp a1 a2 =>
    obtain ⟨v1, v2, s1, s2, h1, h2, hnext⟩ := loads_ok_of_divideByZero h
    split at hnext
    · next hv => exact ⟨f, sp, a1, a2, v1, s1, s2, rfl, h1, hv ▸ h2⟩
    · exact absurd hnext pushAndAdvance_ne_divideByZero

/-- Settles O41: no other line of any instruction raises the fault (`eq_div_of_divideByZero`), and DIV raises it whatever its flags
(`exec_div_by_zero`). -/
theorem divideByZeroFaultsExactlyThen : Obligations.DivideByZeroFaultsExactlyThen := by
  intro s i
  constructor
  · exact eq_div_of_divideByZero
  · rintro ⟨f, sp, a1, a2, v1, s1, s2, rfl, h1, h2⟩
    exact exec_div_by_zero h1 h2 f sp

end Sys2Proof.Machine
end

section
/-! Proofs about errors (60_exceptions.md): which errors a tick returns, and what the diagnostic write does at a static
`DIAG_ADDR`, at one that takes no push, and at a device's. -/

namespace Sys2Proof.Machine

/-! ### The errors a tick returns -/

/-- One of the two errors that a bus call raises (R42, R43); `IllegalInstruction` and `IllegalInstructionSpeed` are not. -/
def CpuError.OfBusCall (e : CpuError) : Prop := (∃ a, e = .addressNotPopulated a) ∨ ∃ x, e = .deviceError x

/-- Where the bus answers with an error, it is one that a bus call raises. -/
def BusResult.ErrsByBusCall {α : Type} : BusResult α → Prop
  | .ok _ _ => True
  | .err e _ => e.OfBusCall
  | .boundary => True

theorem load_errsByBusCall (s : State) (a : Word) : (s.load a).ErrsByBusCall := by
  rcases load_cases s a with ⟨_, _, h⟩ | ⟨_, _, _, _, h⟩ | ⟨_, _, _, _, h⟩ | ⟨_, h⟩ | ⟨_, h⟩ <;> rw [h]
  · trivial
  · trivial
  · exact .inr ⟨_, rfl⟩
  · exact .inl ⟨a, rfl⟩
  · trivial

theorem push_errsByBusCall (s : State) (a v : Word) : (s.push a v).ErrsByBusCall := by
  rcases push_cases s a v with ⟨_, h⟩ | ⟨_, _, _, _, h⟩ | ⟨_, _, _, _, h⟩ | ⟨_, h⟩ | ⟨_, h⟩ <;> rw [h]
  · trivial
  · trivial
  · exact .inr ⟨_, rfl⟩
  · exact .inl ⟨a, rfl⟩
  · trivial

theorem errsByBusCall_andThen {α β : Type} {x : BusResult α} {next : α → State → BusResult β} (h : x.ErrsByBusCall)
    (hnext : ∀ v t, (next v t).ErrsByBusCall) : (x.andThen next).ErrsByBusCall := by
  cases x with
  | ok v t => exact hnext v t
  | err e t => exact h
  | boundary => trivial

theorem fetch_errsByBusCall (s : State) : s.fetch.ErrsByBusCall := by
  rw [fetch_eq_andThen]
  refine errsByBusCall_andThen (load_errsByBusCall ..) fun _ _ => ?_
  refine errsByBusCall_andThen (load_errsByBusCall ..) fun _ _ => ?_
  exact errsByBusCall_andThen (load_errsByBusCall ..) fun _ _ => trivial

/-- Where the tick returns an error, it is one that a bus call raises. -/
def ReturnsBusErrors (o : Host.Outcome State Fault Refusal) : Prop :=
  ∀ t e, o = .next t → t.result = .err e → e.OfBusCall

namespace ReturnsBusErrors

variable {f : Flags} {a1 a2 : Word} {s : State}

theorem advance (s : State) : ReturnsBusErrors (.next s.advance) := by
  rintro _ e ⟨⟩ hr
  cases hr

theorem escalate {e : CpuError} (he : e.OfBusCall) (s : State) : ReturnsBusErrors (.next (s.escalate e)) := by
  rintro _ e' ⟨⟩ hr
  cases hr
  exact he

theorem fault (x : Fault) : ReturnsBusErrors (.fault x) := nofun

theorem takeError {e : CpuError} (he : e.OfBusCall) (f : Flags) (s : State) :
    ReturnsBusErrors (Machine.takeError f e s) := by
  rcases takeError_cases f e s with ⟨_, h⟩ | ⟨_, h⟩ | ⟨_, t, _, h⟩ | ⟨_, _, h⟩ | ⟨_, _, h⟩ <;> rw [h]
  · exact advance s
  · exact escalate he s
  · exact advance t
  · exact fault _
  · exact fault _

theorem tryBus {α : Type} {r : BusResult α} {next : α → State → Host.Outcome State Fault Refusal} (hr : r.ErrsByBusCall)
    (hnext : ∀ v t, ReturnsBusErrors (next v t)) : ReturnsBusErrors (Machine.tryBus f r next) := by
  cases r with
  | ok v t => exact hnext v t
  | err e t => exact takeError hr f t
  | boundary => exact fault _

theorem pushAndAdvance (f : Flags) (a v : Word) (s : State) : ReturnsBusErrors (Machine.pushAndAdvance f a v s) :=
  tryBus (push_errsByBusCall ..) fun _ t => advance t

theorem loadBoth {next : Word → Word → State → Host.Outcome State Fault Refusal}
    (hnext : ∀ v1 v2 t, ReturnsBusErrors (next v1 v2 t)) : ReturnsBusErrors (Machine.loadBoth f a1 a2 s next) :=
  tryBus (load_errsByBusCall ..) fun v1 _ => tryBus (load_errsByBusCall ..) fun v2 t => hnext v1 v2 t

theorem arithmetic (op : Width → Word → Word → Word) (f : Flags) (a1 a2 : Word) (s : State) :
    ReturnsBusErrors (Machine.arithmetic op f a1 a2 s) :=
  loadBoth fun _ _ t => pushAndAdvance f a1 _ t

theorem exec (i : Instr) (s : State) : ReturnsBusErrors (Machine.exec i s) := by
  cases i with
  | nop => exact advance s
  | load f sp a1 a2 => exact pushAndAdvance f a1 a2 s
  | copy f sp a1 a2 => exact tryBus (load_errsByBusCall ..) fun v t => pushAndAdvance f a2 v t
  | cmp f sp a1 a2 => exact loadBoth fun _ _ _ => advance _
  | add f sp a1 a2 => exact arithmetic addW f a1 a2 s
  | sub f sp a1 a2 => exact arithmetic subW f a1 a2 s
  | mul f sp a1 a2 => exact arithmetic mulW f a1 a2 s
  | div f sp a1 a2 =>
    refine loadBoth fun v1 v2 t => ?_
    split
    · exact fault _
    · exact pushAndAdvance f a1 _ t

theorem step (s : State) : ReturnsBusErrors (Machine.step s) := by
  cases hf : s.fetch with
  | ok words t => exact stepRunsTheDecodedInstruction s t words hf ▸ exec _ t
  | err e t =>
    have he := fetch_errsByBusCall s
    rw [hf] at he
    exact step_of_fetch_err hf ▸ escalate he t
  | boundary => exact step_of_fetch_boundary hf ▸ fault _

end ReturnsBusErrors

/-- Settles O32: a tick returns only an error that it takes from a bus call (`ReturnsBusErrors.step`). -/
theorem onlyTwoErrorsAreRaised : Obligations.OnlyTwoErrorsAreRaised := ReturnsBusErrors.step

/-! ### The diagnostic write where no device claims `DIAG_ADDR` -/

theorem diagnosticWrite_static {s : State} (h : s.isStatic s.cfg.diagAddr = true) :
    s.diagnosticWrite = .done (s.poke s.cfg.diagAddr s.regZero) := by
  rcases (isStatic_iff s _).mp h with hp | ⟨i, hp⟩ | ⟨i, hp⟩ <;> rw [State.diagnosticWrite, hp]

theorem diagnosticWrite_unpopulated {s : State} (h : s.place s.cfg.diagAddr = .unpopulated) : s.diagnosticWrite = .hang := by
  rw [State.diagnosticWrite, h]

theorem diagnosticWrite_boundary {s : State} (h : s.place s.cfg.diagAddr = .boundary) : s.diagnosticWrite = .boundary := by
  rw [State.diagnosticWrite, h]

/-- The flags of a diagnostic leave the outcome of an error to the diagnostic write (R156, the last row). -/
theorem takeError_diagnostic (e : CpuError) (s : State) :
    (∀ t, s.diagnosticWrite = .done t → takeError ⟨false, true, false⟩ e s = .next t.advance) ∧
    (s.diagnosticWrite = .boundary → takeError ⟨false, true, false⟩ e s = .fault .boundaryAddress) ∧
    (s.diagnosticWrite = .hang → takeError ⟨false, true, false⟩ e s = .fault .diagnosticLoop) := by
  obtain ⟨_, _, _, hrecord⟩ := policyOutcome_takeError ⟨false, true, false⟩ e s
  exact hrecord rfl rfl rfl

/-- Settles O50: the failing access left the state alone, so the Word written is the `reg_zero` the tick began with. -/
theorem diagnosticRecordsTheFailingAddress : Obligations.DiagnosticRecordsTheFailingAddress := by
  intro s i before after a hacc hb hp hf hs
  obtain ⟨hdone, _, _⟩ := takeError_diagnostic (.addressNotPopulated a) s
  rw [exec_unpopulated hacc hb hp, hf]
  exact ⟨_, hdone _ (diagnosticWrite_static hs), storesAndAdvances_poke hs s.regZero⟩

/-- Settles O51: the instruction is the taking of its error (`exec_unpopulated`), and so ends as the diagnostic write does. -/
theorem diagnosticWriteHangsOrFaults : Obligations.DiagnosticWriteHangsOrFaults := by
  intro s i before after a hacc hb hp hf
  obtain ⟨_, hboundary, hhang⟩ := takeError_diagnostic (.addressNotPopulated a) s
  rw [exec_unpopulated hacc hb hp, hf]
  exact ⟨fun h => hhang (diagnosticWrite_unpopulated h),
    fun h => hboundary (diagnosticWrite_boundary (place_of_boundary h))⟩

/-! ### The diagnostic write on a device -/

section Retries

variable (d : Nat) (call : DeviceCall) (failures : List Word) (s : State)

theorem recordFailures_script : (s.recordFailures d call failures).script = s.script.drop failures.length := by
  induction failures generalizing s with
  | nil => rfl
  | cons x xs ih => rw [State.recordFailures, ih, State.recordCall_script, List.drop_tail, List.length_cons]

theorem recordFailures_draws : (s.recordFailures d call failures).draws = s.draws + failures.length := by
  induction failures generalizing s with
  | nil => rfl
  | cons x xs ih => rw [State.recordFailures, ih, State.recordCall_draws, List.length_cons, Nat.add_right_comm, Nat.add_assoc]

theorem recordFailures_events : (s.recordFailures d call failures).events =
    s.events ++ failures.map fun y => ⟨d, call, .failed (wrap s.cfg.width y)⟩ := by
  induction failures generalizing s with
  | nil => exact (List.append_nil _).symm
  | cons x xs ih => rw [State.recordFailures, ih, State.recordCall_events, List.append_assoc]; rfl

/-- Settled failures are recorded one after another, and the loop goes on with the answers after them. -/
theorem retryPush_failures (rest : List DeviceAnswer) :
    retryPush d call (failures.map .failed ++ rest) s = retryPush d call rest (s.recordFailures d call failures) := by
  induction failures generalizing s with
  | nil => rfl
  | cons x xs ih => exact ih _

end Retries

theorem diagnosticWrite_device {s : State} {d : Nat} (h : s.place s.cfg.diagAddr = .device d) {failures : List Word}
    {rest : List DeviceAnswer} (hs : s.script = failures.map .failed ++ rest) :
    s.diagnosticWrite = retryPush d (.push s.cfg.diagAddr s.regZero) rest
      (s.recordFailures d (.push s.cfg.diagAddr s.regZero) failures) := by
  rw [← retryPush_failures, ← hs, State.diagnosticWrite, h]

/-- Settles O52: past the failures (`diagnosticWrite_device`) the loop takes the success and ends. -/
theorem diagnosticWriteRetriesUntilTaken : Obligations.DiagnosticWriteRetriesUntilTaken := by
  intro s d failures x rest hp hs
  have only := recordFailures_only d (.push s.cfg.diagAddr s.regZero) failures s
  refine ⟨_, diagnosticWrite_device hp hs, (only.trans (recordCall_only ..)).sameCore, ?_, ?_, ?_⟩
  · rw [State.recordCall_script, recordFailures_script, hs, List.drop_left' (List.length_map _), List.tail_cons]
  · rw [State.recordCall_draws, recordFailures_draws]
  · rw [State.recordCall_events, recordFailures_events, only.cfg]

/-- Settles O53: past the failures (`diagnosticWrite_device`) the oracle is asked once, with the draws and the record they left. -/
theorem diagnosticWriteEndsAsTheOracleSays : Obligations.DiagnosticWriteEndsAsTheOracleSays := by
  intro s d failures hp hs
  have hwrite := diagnosticWrite_device hp (hs.trans (List.append_nil _).symm)
  rw [retryPush, recordFailures_draws, recordFailures_events] at hwrite
  split
  · next more hmore =>
    rw [hmore] at hwrite
    refine ⟨_, hwrite, ?_, ?_⟩
    · exact ((recordFailures_only ..).trans ((recordFailures_only ..).trans (recordCall_only ..))).sameCore
    · rw [State.recordCall_draws, recordFailures_draws, recordFailures_draws]
  · next hnone =>
    rwa [hnone] at hwrite

end Sys2Proof.Machine
end
